-- ==== Sys2Proof/Word.lean ====
section
/-! DEFINITION. The word types of rusty-chip8 CORE: what the spec treats as bits (00_scope.md R6). -/

namespace Sys2Proof

/-- A memory cell, a general register, a timer (10_state.md R20, R27; 20_memory.md R50). -/
abbrev Byte := BitVec 8

/-- An opcode, `pc`, `I`, a stack cell (10_state.md R22, R23, R25; 30_encoding.md R80). -/
abbrev Word := BitVec 16

/-- The 4-bit fields `fam`, `x`, `y`, `n` of an opcode (30_encoding.md R81). -/
abbrev Nibble := BitVec 4

/-- A register index 0 to 15, as the fields `x` and `y` hold it (30_encoding.md R81). -/
abbrev Reg := BitVec 4

/-- The 12-bit immediate address `nnn` (30_encoding.md R81). -/
abbrev Addr12 := BitVec 12

end Sys2Proof
end

