-- ==== Sys2Proof/Config.lean ====
section
/-! DEFINITION. What an implementation fixes, as types, and the model's one free value.
The values of the parameters of 00_scope.md R4 stand in Sys2Proof/Machine/Params.lean. -/

namespace Sys2Proof.Config

/-- What Ex9E and ExA1 do with a key index above 15 (parameter `KEY_INDEX_MODE` of 00_scope.md R4;
43_keypad_timers.md R156). -/
inductive KeyIndexMode where
  /-- raise `InvalidKeyFault` (the default) -/
  | fault
  /-- use the low nibble -/
  | mask
  deriving DecidableEq, Repr

/-- The two OPEN parameters of the `run` port (00_scope.md R4; 70_reset_and_hazards.md R246, R247):
instructions per second and whether the fraction of an instruction is carried to the next call. The model
takes them as an argument of the port and fixes neither. -/
structure Pacing where
  ips : Rat
  carry : Bool
  deriving DecidableEq, Repr

/-- The byte that draw number `k` of the random source returns (60_exceptions.md R219: any byte 0 to 255,
independent of all state and of earlier draws, under no law). A free value: it has no body, so nothing can
evaluate it and a claim about it holds whatever the source returns (log entry 2). -/
opaque randomByte : Nat → Byte

end Sys2Proof.Config
end

