-- ==== Sys2Proof/Machine/Params.lean ====
section
/-! DEFINITION. The values of the parameters of 00_scope.md R4 that the spec fixes or decides.
They stand under Machine/ so that a later repair may mend a value; the widths and counts that are types
(16 registers of 8 bits, a 64 by 32 screen and so on) stand in Machine/State.lean. -/

namespace Sys2Proof.Config

/-- The highest memory address, 0xFFF (`MEM_SIZE` 4096; 20_memory.md R50). -/
abbrev memTop : Nat := 0xFFF

/-- `PROG_BASE`: where the program image goes and where execution begins (20_memory.md R52). -/
abbrev progBase : Nat := 0x200

/-- `PROG_MAX`: the longest program image, in bytes (20_memory.md R53). -/
abbrev progMax : Nat := 3584

/-- `FONT_BASE` (spec decision D2; log entry 5). -/
abbrev fontBase : Nat := 0x050

/-- `FONT`: sixteen glyphs of five bytes, top row first (20_memory.md R56; spec decision D3; log entry 5). -/
def font : List Byte :=
  [0xF0, 0x90, 0x90, 0x90, 0xF0] ++ [0x20, 0x60, 0x20, 0x20, 0x70] ++
  [0xF0, 0x10, 0xF0, 0x80, 0xF0] ++ [0xF0, 0x10, 0xF0, 0x10, 0xF0] ++
  [0x90, 0x90, 0xF0, 0x10, 0x10] ++ [0xF0, 0x80, 0xF0, 0x10, 0xF0] ++
  [0xF0, 0x80, 0xF0, 0x90, 0xF0] ++ [0xF0, 0x10, 0x20, 0x40, 0x40] ++
  [0xF0, 0x90, 0xF0, 0x90, 0xF0] ++ [0xF0, 0x90, 0xF0, 0x10, 0xF0] ++
  [0xF0, 0x90, 0xF0, 0x90, 0x90] ++ [0xE0, 0x90, 0xE0, 0x90, 0xE0] ++
  [0xF0, 0x80, 0x80, 0x80, 0xF0] ++ [0xE0, 0x90, 0x90, 0x90, 0xE0] ++
  [0xF0, 0x80, 0xF0, 0x80, 0xF0] ++ [0xF0, 0x80, 0xF0, 0x80, 0x80]

/-- `QUIRK_SHIFT_VY`: false, shifts use register X only (00_scope.md R5; log entry 7). -/
def quirkShiftVy : Bool := false

/-- `QUIRK_JUMP_VX`: false, jump with offset adds V0 (00_scope.md R5; log entry 7). -/
def quirkJumpVx : Bool := false

/-- `KEY_INDEX_MODE`: fault (43_keypad_timers.md R156; spec decision D12; log entry 8). -/
def keyIndexMode : KeyIndexMode := .fault

end Sys2Proof.Config
end

