-- ==== Sys2Proof/Syntax.lean ====
section
/-! DEFINITION. The instructions: one constructor per row of spec/opcode_table.json, in the table's order
(30_encoding.md R84). An operand is a bit vector of exactly its field's width (R81, R83), unsigned. -/

namespace Sys2Proof

inductive Instr where
  /-- 00E0 `CLS`, 42_display.md R140. -/
  | cls
  /-- 00EE `RET`, 40_control_flow.md R101. -/
  | ret
  /-- 1nnn `JP nnn`, R102. -/
  | jp (nnn : Addr12)
  /-- 2nnn `CALL nnn`, R103. -/
  | call (nnn : Addr12)
  /-- 3xkk `SE Vx, kk`, R104. -/
  | seImm (x : Reg) (kk : Byte)
  /-- 4xkk `SNE Vx, kk`, R105. -/
  | sneImm (x : Reg) (kk : Byte)
  /-- 5xy0 `SE Vx, Vy`, R106. -/
  | seReg (x y : Reg)
  /-- 6xkk `LD Vx, kk`, 41_alu.md R120. -/
  | ldImm (x : Reg) (kk : Byte)
  /-- 7xkk `ADD Vx, kk`, R121. -/
  | addImm (x : Reg) (kk : Byte)
  /-- 8xy0 `LD Vx, Vy`, R122. -/
  | ldReg (x y : Reg)
  /-- 8xy1 `OR Vx, Vy`, R123. -/
  | orReg (x y : Reg)
  /-- 8xy2 `AND Vx, Vy`, R124. -/
  | andReg (x y : Reg)
  /-- 8xy3 `XOR Vx, Vy`, R125. -/
  | xorReg (x y : Reg)
  /-- 8xy4 `ADD Vx, Vy`, R126. -/
  | addReg (x y : Reg)
  /-- 8xy5 `SUB Vx, Vy`, R127. -/
  | subReg (x y : Reg)
  /-- 8xy6 `SHR Vx`, R128. The field `y` is decoded and, with `QUIRK_SHIFT_VY` false, ignored
  (30_encoding.md R90); the constructor keeps it so that no bit of the opcode is lost. -/
  | shr (x y : Reg)
  /-- 8xy7 `SUBN Vx, Vy`, R129. -/
  | subnReg (x y : Reg)
  /-- 8xyE `SHL Vx`, R130. The field `y` as in `shr`. -/
  | shl (x y : Reg)
  /-- 9xy0 `SNE Vx, Vy`, 40_control_flow.md R107. -/
  | sneReg (x y : Reg)
  /-- Annn `LD I, nnn`, 44_index_memory.md R160. -/
  | ldI (nnn : Addr12)
  /-- Bnnn `JP V0, nnn`, 40_control_flow.md R108, R110. -/
  | jpV0 (nnn : Addr12)
  /-- Cxkk `RND Vx, kk`, 41_alu.md R131. -/
  | rnd (x : Reg) (kk : Byte)
  /-- Dxyn `DRW Vx, Vy, n`, 42_display.md R141. -/
  | drw (x y : Reg) (n : Nibble)
  /-- Ex9E `SKP Vx`, 43_keypad_timers.md R150. -/
  | skp (x : Reg)
  /-- ExA1 `SKNP Vx`, R151. -/
  | sknp (x : Reg)
  /-- Fx07 `LD Vx, DT`, R152. -/
  | ldVxDt (x : Reg)
  /-- Fx0A `LD Vx, K`, R153. -/
  | ldVxK (x : Reg)
  /-- Fx15 `LD DT, Vx`, R154. -/
  | ldDtVx (x : Reg)
  /-- Fx18 `LD ST, Vx`, R155. -/
  | ldStVx (x : Reg)
  /-- Fx1E `ADD I, Vx`, 44_index_memory.md R161. -/
  | addI (x : Reg)
  /-- Fx29 `LD F, Vx`, R162. -/
  | ldF (x : Reg)
  /-- Fx33 `LD B, Vx`, R163. -/
  | ldB (x : Reg)
  /-- Fx55 `LD [I], Vx`, R164. -/
  | storeRegs (x : Reg)
  /-- Fx65 `LD Vx, [I]`, R165. -/
  | loadRegs (x : Reg)
  deriving DecidableEq, Repr

end Sys2Proof
end

