-- ==== Sys2Proof/WellFormed.lean ====
section
/-! DEFINITION. The checks on what comes from outside the machine: an instruction's operands and a program
image. (That a 16-bit pattern is an instruction at all is the decoder's check, Sys2Proof/Decode.lean.) -/

namespace Sys2Proof

/-- `v` fits a field of `w` bits. -/
def fits (w v : Nat) : Bool := decide (v < 2 ^ w)

/-- Every operand fits its field of 30_encoding.md R81. The operand types already have the fields' widths, so
this holds of every instruction (`Instr.wellFormed_all` in Laws/PerInstr.lean): no value of `Instr` is ill-formed, and R90 gives
no operand value that is illegal to decode. -/
def Instr.wellFormed : Instr → Bool
  | .cls | .ret => true
  | .jp nnn | .call nnn | .ldI nnn | .jpV0 nnn => fits 12 nnn.toNat
  | .seImm x kk | .sneImm x kk | .ldImm x kk | .addImm x kk | .rnd x kk => fits 4 x.toNat && fits 8 kk.toNat
  | .seReg x y | .sneReg x y | .ldReg x y | .orReg x y | .andReg x y | .xorReg x y | .addReg x y
  | .subReg x y | .shr x y | .subnReg x y | .shl x y => fits 4 x.toNat && fits 4 y.toNat
  | .drw x y n => fits 4 x.toNat && fits 4 y.toNat && fits 4 n.toNat
  | .skp x | .sknp x | .ldVxDt x | .ldVxK x | .ldDtVx x | .ldStVx x | .addI x | .ldF x | .ldB x
  | .storeRegs x | .loadRegs x => fits 4 x.toNat

/-- A program image `create` accepts: neither empty nor longer than the program region
(70_reset_and_hazards.md R240, R241). -/
def imageWellFormed (rom : List Byte) : Bool :=
  decide (1 ≤ rom.length) && decide (rom.length ≤ Config.progMax)

end Sys2Proof
end

