-- ==== Sys2Proof/Decode.lean ====
section
/-! DEFINITION. The decoder, the encoder and the opcode table (30_encoding.md R80 to R90).
Decoding is total: every 16-bit pattern is one instruction or is rejected by name (R84, R89). -/

namespace Sys2Proof

/-! ### Fields (R81) -/

/-- `op[15:12]`, the primary family selector. -/
def fieldFam (op : Word) : Nibble := op.extractLsb' 12 4
/-- `op[11:8]`. -/
def fieldX (op : Word) : Reg := op.extractLsb' 8 4
/-- `op[7:4]`. -/
def fieldY (op : Word) : Reg := op.extractLsb' 4 4
/-- `op[3:0]`. -/
def fieldN (op : Word) : Nibble := op.extractLsb' 0 4
/-- `op[7:0]`. -/
def fieldKK (op : Word) : Byte := op.extractLsb' 0 8
/-- `op[11:0]`. -/
def fieldNNN (op : Word) : Addr12 := op.extractLsb' 0 12

/-! ### The decoder -/

/-- Why bytes are no instruction. -/
inductive DecodeError where
  /-- The opcode matches no row of the table (R89); the fetch makes a `DecodeFault` of it. -/
  | illegal (op : Word)
  /-- Fewer than two bytes: no instruction is shorter (R80). The fetch always has two. -/
  | truncated (given : Nat)
  deriving DecidableEq, Repr

/-- Family 0 (R85): only 00E0 and 00EE; there is no `0nnn` SYS. -/
def decodeFamily0 (op : Word) : Except DecodeError Instr :=
  if op = 0x00E0#16 then .ok .cls
  else if op = 0x00EE#16 then .ok .ret
  else .error (.illegal op)

/-- Family 8 (R86), selected by `n`. -/
def decodeFamily8 (op : Word) : Except DecodeError Instr :=
  match (fieldN op).toNat with
  | 0x0 => .ok (.ldReg (fieldX op) (fieldY op))
  | 0x1 => .ok (.orReg (fieldX op) (fieldY op))
  | 0x2 => .ok (.andReg (fieldX op) (fieldY op))
  | 0x3 => .ok (.xorReg (fieldX op) (fieldY op))
  | 0x4 => .ok (.addReg (fieldX op) (fieldY op))
  | 0x5 => .ok (.subReg (fieldX op) (fieldY op))
  | 0x6 => .ok (.shr (fieldX op) (fieldY op))
  | 0x7 => .ok (.subnReg (fieldX op) (fieldY op))
  | 0xE => .ok (.shl (fieldX op) (fieldY op))
  | _ => .error (.illegal op)

/-- Family E (R87), selected by `kk`. -/
def decodeFamilyE (op : Word) : Except DecodeError Instr :=
  match (fieldKK op).toNat with
  | 0x9E => .ok (.skp (fieldX op))
  | 0xA1 => .ok (.sknp (fieldX op))
  | _ => .error (.illegal op)

/-- Family F (R88), selected by `kk`. -/
def decodeFamilyF (op : Word) : Except DecodeError Instr :=
  match (fieldKK op).toNat with
  | 0x07 => .ok (.ldVxDt (fieldX op))
  | 0x0A => .ok (.ldVxK (fieldX op))
  | 0x15 => .ok (.ldDtVx (fieldX op))
  | 0x18 => .ok (.ldStVx (fieldX op))
  | 0x1E => .ok (.addI (fieldX op))
  | 0x29 => .ok (.ldF (fieldX op))
  | 0x33 => .ok (.ldB (fieldX op))
  | 0x55 => .ok (.storeRegs (fieldX op))
  | 0x65 => .ok (.loadRegs (fieldX op))
  | _ => .error (.illegal op)

/-- The decoder of one opcode: by family first (R84); in families 5 and 9 the low nibble must be 0 (R90). -/
def decodeWord (op : Word) : Except DecodeError Instr :=
  match (fieldFam op).toNat with
  | 0x0 => decodeFamily0 op
  | 0x1 => .ok (.jp (fieldNNN op))
  | 0x2 => .ok (.call (fieldNNN op))
  | 0x3 => .ok (.seImm (fieldX op) (fieldKK op))
  | 0x4 => .ok (.sneImm (fieldX op) (fieldKK op))
  | 0x5 => if fieldN op = 0#4 then .ok (.seReg (fieldX op) (fieldY op)) else .error (.illegal op)
  | 0x6 => .ok (.ldImm (fieldX op) (fieldKK op))
  | 0x7 => .ok (.addImm (fieldX op) (fieldKK op))
  | 0x8 => decodeFamily8 op
  | 0x9 => if fieldN op = 0#4 then .ok (.sneReg (fieldX op) (fieldY op)) else .error (.illegal op)
  | 0xA => .ok (.ldI (fieldNNN op))
  | 0xB => .ok (.jpV0 (fieldNNN op))
  | 0xC => .ok (.rnd (fieldX op) (fieldKK op))
  | 0xD => .ok (.drw (fieldX op) (fieldY op) (fieldN op))
  | 0xE => decodeFamilyE op
  | 0xF => decodeFamilyF op
  | _ => .error (.illegal op)

/-- Two bytes as an opcode, the byte at the lower address in bits 15 to 8 (20_memory.md R58). -/
def joinBytes (hi lo : Byte) : Word := hi ++ lo

/-- The decoder on bytes in memory order: exactly two bytes are looked at (R80). -/
def decodeBytes : List Byte → Except DecodeError Instr
  | hi :: lo :: _ => decodeWord (joinBytes hi lo)
  | [_] => .error (.truncated 1)
  | [] => .error (.truncated 0)

/-! ### The encoder, from the formats of R82 -/

/-- Format `NNN`. -/
def encodeNNN (fam : Nibble) (nnn : Addr12) : Word := fam ++ nnn
/-- Format `XKK`. -/
def encodeXKK (fam : Nibble) (x : Reg) (kk : Byte) : Word := fam ++ x ++ kk
/-- Formats `XY` (the last nibble a selector) and `XYN` (the last nibble `n`). -/
def encodeXYN (fam : Nibble) (x y : Reg) (n : Nibble) : Word := fam ++ x ++ y ++ n

/-- The opcode of an instruction (R84's patterns). -/
def encode : Instr → Word
  | .cls => 0x00E0#16
  | .ret => 0x00EE#16
  | .jp nnn => encodeNNN 0x1 nnn
  | .call nnn => encodeNNN 0x2 nnn
  | .seImm x kk => encodeXKK 0x3 x kk
  | .sneImm x kk => encodeXKK 0x4 x kk
  | .seReg x y => encodeXYN 0x5 x y 0x0
  | .ldImm x kk => encodeXKK 0x6 x kk
  | .addImm x kk => encodeXKK 0x7 x kk
  | .ldReg x y => encodeXYN 0x8 x y 0x0
  | .orReg x y => encodeXYN 0x8 x y 0x1
  | .andReg x y => encodeXYN 0x8 x y 0x2
  | .xorReg x y => encodeXYN 0x8 x y 0x3
  | .addReg x y => encodeXYN 0x8 x y 0x4
  | .subReg x y => encodeXYN 0x8 x y 0x5
  | .shr x y => encodeXYN 0x8 x y 0x6
  | .subnReg x y => encodeXYN 0x8 x y 0x7
  | .shl x y => encodeXYN 0x8 x y 0xE
  | .sneReg x y => encodeXYN 0x9 x y 0x0
  | .ldI nnn => encodeNNN 0xA nnn
  | .jpV0 nnn => encodeNNN 0xB nnn
  | .rnd x kk => encodeXKK 0xC x kk
  | .drw x y n => encodeXYN 0xD x y n
  | .skp x => encodeXKK 0xE x 0x9E
  | .sknp x => encodeXKK 0xE x 0xA1
  | .ldVxDt x => encodeXKK 0xF x 0x07
  | .ldVxK x => encodeXKK 0xF x 0x0A
  | .ldDtVx x => encodeXKK 0xF x 0x15
  | .ldStVx x => encodeXKK 0xF x 0x18
  | .addI x => encodeXKK 0xF x 0x1E
  | .ldF x => encodeXKK 0xF x 0x29
  | .ldB x => encodeXKK 0xF x 0x33
  | .storeRegs x => encodeXKK 0xF x 0x55
  | .loadRegs x => encodeXKK 0xF x 0x65

/-- The high byte of an opcode, stored at the lower address. -/
def highByte (op : Word) : Byte := op.extractLsb' 8 8
/-- The low byte of an opcode, stored at the higher address. -/
def lowByte (op : Word) : Byte := op.extractLsb' 0 8

/-- An instruction as it stands in memory (20_memory.md R62). -/
def encodeBytes (i : Instr) : List Byte := [highByte (encode i), lowByte (encode i)]

/-! ### The opcode table (R84), written apart from the decoder -/

/-- One row: an opcode `op` selects it when `op AND mask = value`. -/
structure OpcodeRow where
  mnemonic : String
  mask : Word
  value : Word
  deriving DecidableEq, Repr

/-- `op` selects the row. -/
def OpcodeRow.selects (row : OpcodeRow) (op : Word) : Bool := decide (op &&& row.mask = row.value)

/-- The row an instruction belongs to, with the table's mask and match. -/
def tableRow : Instr → OpcodeRow
  | .cls => ⟨"CLS", 0xFFFF, 0x00E0⟩
  | .ret => ⟨"RET", 0xFFFF, 0x00EE⟩
  | .jp _ => ⟨"JP_nnn", 0xF000, 0x1000⟩
  | .call _ => ⟨"CALL_nnn", 0xF000, 0x2000⟩
  | .seImm _ _ => ⟨"SE_Vx__kk", 0xF000, 0x3000⟩
  | .sneImm _ _ => ⟨"SNE_Vx__kk", 0xF000, 0x4000⟩
  | .seReg _ _ => ⟨"SE_Vx__Vy", 0xF00F, 0x5000⟩
  | .ldImm _ _ => ⟨"LD_Vx__kk", 0xF000, 0x6000⟩
  | .addImm _ _ => ⟨"ADD_Vx__kk", 0xF000, 0x7000⟩
  | .ldReg _ _ => ⟨"LD_Vx__Vy", 0xF00F, 0x8000⟩
  | .orReg _ _ => ⟨"OR_Vx__Vy", 0xF00F, 0x8001⟩
  | .andReg _ _ => ⟨"AND_Vx__Vy", 0xF00F, 0x8002⟩
  | .xorReg _ _ => ⟨"XOR_Vx__Vy", 0xF00F, 0x8003⟩
  | .addReg _ _ => ⟨"ADD_Vx__Vy", 0xF00F, 0x8004⟩
  | .subReg _ _ => ⟨"SUB_Vx__Vy", 0xF00F, 0x8005⟩
  | .shr _ _ => ⟨"SHR_Vx", 0xF00F, 0x8006⟩
  | .subnReg _ _ => ⟨"SUBN_Vx__Vy", 0xF00F, 0x8007⟩
  | .shl _ _ => ⟨"SHL_Vx", 0xF00F, 0x800E⟩
  | .sneReg _ _ => ⟨"SNE_Vx__Vy", 0xF00F, 0x9000⟩
  | .ldI _ => ⟨"LD_I__nnn", 0xF000, 0xA000⟩
  | .jpV0 _ => ⟨"JP_V0__nnn", 0xF000, 0xB000⟩
  | .rnd _ _ => ⟨"RND_Vx__kk", 0xF000, 0xC000⟩
  | .drw _ _ _ => ⟨"DRW_Vx__Vy__n", 0xF000, 0xD000⟩
  | .skp _ => ⟨"SKP_Vx", 0xF0FF, 0xE09E⟩
  | .sknp _ => ⟨"SKNP_Vx", 0xF0FF, 0xE0A1⟩
  | .ldVxDt _ => ⟨"LD_Vx__DT", 0xF0FF, 0xF007⟩
  | .ldVxK _ => ⟨"LD_Vx__K", 0xF0FF, 0xF00A⟩
  | .ldDtVx _ => ⟨"LD_DT__Vx", 0xF0FF, 0xF015⟩
  | .ldStVx _ => ⟨"LD_ST__Vx", 0xF0FF, 0xF018⟩
  | .addI _ => ⟨"ADD_I__Vx", 0xF0FF, 0xF01E⟩
  | .ldF _ => ⟨"LD_F__Vx", 0xF0FF, 0xF029⟩
  | .ldB _ => ⟨"LD_B__Vx", 0xF0FF, 0xF033⟩
  | .storeRegs _ => ⟨"LD__I___Vx", 0xF0FF, 0xF055⟩
  | .loadRegs _ => ⟨"LD_Vx___I", 0xF0FF, 0xF065⟩

/-- The whole table, one row per instruction, in its order. -/
def opcodeTable : List OpcodeRow :=
  [tableRow .cls, tableRow .ret, tableRow (.jp 0), tableRow (.call 0), tableRow (.seImm 0 0),
   tableRow (.sneImm 0 0), tableRow (.seReg 0 0), tableRow (.ldImm 0 0), tableRow (.addImm 0 0)] ++
  [tableRow (.ldReg 0 0), tableRow (.orReg 0 0), tableRow (.andReg 0 0), tableRow (.xorReg 0 0),
   tableRow (.addReg 0 0), tableRow (.subReg 0 0), tableRow (.shr 0 0), tableRow (.subnReg 0 0),
   tableRow (.shl 0 0)] ++
  [tableRow (.sneReg 0 0), tableRow (.ldI 0), tableRow (.jpV0 0), tableRow (.rnd 0 0),
   tableRow (.drw 0 0 0), tableRow (.skp 0), tableRow (.sknp 0)] ++
  [tableRow (.ldVxDt 0), tableRow (.ldVxK 0), tableRow (.ldDtVx 0), tableRow (.ldStVx 0),
   tableRow (.addI 0), tableRow (.ldF 0), tableRow (.ldB 0), tableRow (.storeRegs 0),
   tableRow (.loadRegs 0)]

/-! ### The host's numbering -/

/-- The bytes of an instruction whose bits are `w` in the opcode table's numbering (bit 0 the least
significant of the only word): bits at and above `nbits` are 0, the high byte comes first. -/
def tableBytes (nbits w : Nat) : List Byte :=
  let op : Word := BitVec.ofNat 16 (w % 2 ^ nbits)
  [highByte op, lowByte op]

/-- What the decoder reads from an instruction whose bits are `w`, numbered as the table numbers them. -/
def decodeTableWord (nbits w : Nat) : Option Instr :=
  match decodeBytes (tableBytes nbits w) with
  | .ok i => some i
  | .error _ => none

end Sys2Proof
end

