-- ==== Sys2Proof/Machine/State.lean ====
section
/-! DEFINITION. The state of rusty-chip8 CORE as plain data (10_state.md), the fault values its latch can hold
(60_exceptions.md R200), and the state after reset (10_state.md R34). -/

namespace Sys2Proof.Machine

/-- The two ways the call stack can fail (60_exceptions.md R203). -/
inductive StackKind where
  | overflow
  | underflow
  deriving DecidableEq, Repr

/-- The fault values of 60_exceptions.md R200 that the latch `fault` can hold. The spec describes the entry into
a fault (R206): the step's writes are discarded and the latch is set. So a raising step answers a NEXT state whose
latch holds the value, and no step of this model answers `Host.Outcome.fault` (log entry 1). `LoadFault` is not
among them: it is raised by `create`, where no machine comes into being (R201). -/
inductive Fault where
  /-- `AddressFault(addr)`: raised by the fetch of any step and by Dxyn, Fx33, Fx55, Fx65, with the first
  out-of-range address (R202). Safe: the spec gives it. -/
  | address (addr : Nat)
  /-- `StackFault(kind)`: raised by 2nnn (overflow) and 00EE (underflow) (R203). Safe: the spec gives it. -/
  | stack (kind : StackKind)
  /-- `DecodeFault(op)`: raised by the decode of any step (R204). Safe: the spec gives it. -/
  | decode (op : Word)
  /-- `InvalidKeyFault(k)`: raised by Ex9E and ExA1 when `V[x]` exceeds 15 (R208), and answered by the host ports
  `press_key` and `release_key` without touching the latch (R207). In the latch `k` is 16 to 255, as R200 has it; the answer of a host port can
  name a larger one (DESIGN CHOICE, log entry 20). Safe: spec decision D12 errs that way. -/
  | invalidKey (k : Nat)
  deriving DecidableEq, Repr

/-- `LoadFault(reason)` of `create` (R201). -/
inductive LoadFault where
  | empty
  | tooLarge
  deriving DecidableEq, Repr

/-- Why a step can have no meaning. No arm of `exec` uses it: every instruction of the table is modelled. -/
inductive Refusal where
  /-- Raised by an arm of `exec` whose instruction has no meaning yet. Safe: nothing can be proved of it. -/
  | notModelled (mnemonic : String)
  deriving DecidableEq, Repr

/-- `mem` as address and byte pairs, strictly rising, no entry equal to the reset content of its cell
(`Memory.wf` in Machine/Ops.lean); an unlisted cell holds its reset content. -/
abbrev Memory := List Host.Cell

/-- The framebuffer: 32 rows from the top, each 64 pixels from the left (10_state.md R28). -/
abbrev Screen := Vector (Vector Bool 64) 32

structure State where
  /-- `V[0]` to `V[15]` (R20); `V[15]` doubles as the flag VF (R21). -/
  V : Vector Byte 16
  /-- The index register (R22). -/
  I : Word
  /-- The program counter (R23): between steps, the address of the instruction the next step executes. -/
  pc : Word
  /-- The call stack's cells (R25), a space of their own. -/
  stack : Vector Word 16
  /-- The depth of the call stack, 0 to 16 (R26). -/
  sp : Fin 17
  /-- The delay timer (R27). -/
  DT : Byte
  /-- The sound timer (R27). -/
  ST : Byte
  /-- The framebuffer (R28). -/
  fb : Screen
  /-- The dirty flag (R29). -/
  dirty : Bool
  /-- The sixteen key latches (R30). -/
  key : Vector Bool 16
  /-- The memory (R32). -/
  mem : Memory
  /-- The fault latch (R31): `none` is ready, `some` is halted for good. -/
  fault : Option Fault
  /-- The fraction of an instruction the `run` port carries to its next call (R33); no instruction reads it. -/
  remainder : Rat
  /-- The model's own field: how many bytes the random source has given so far (log entry 2). -/
  draws : Nat
  deriving DecidableEq, Repr

/-- The machine right after reset with an empty program region (10_state.md R34): what `create` makes of an image
of zero bytes (log entry 3). Every field has the value R34 gives; memory lists nothing, so each cell holds its
reset content; `draws` is the model's own (log entry 2). -/
def State.reset : State where
  V := Vector.replicate 16 0
  I := 0
  pc := BitVec.ofNat 16 Config.progBase
  stack := Vector.replicate 16 0
  sp := 0
  DT := 0
  ST := 0
  fb := Vector.replicate 32 (Vector.replicate 64 false)
  dirty := false
  key := Vector.replicate 16 false
  mem := []
  fault := none
  remainder := 0
  draws := 0

end Sys2Proof.Machine
end

