-- ==== Sys2Proof/Machine/Ops.lean ====
section
/-! DEFINITION. The named operations over memory, registers, stack and screen; fetching; taking a fault.
An operation that can raise answers in `Except Fault`; `settle` turns that into a step's outcome. -/

namespace Sys2Proof.Machine

/-! ### Memory as data -/

/-- What a cell holds at reset where no program image lies: the font bytes, else zero
(20_memory.md R52, R56; 10_state.md R34). -/
def resetByte (a : Nat) : Byte :=
  if Config.fontBase ≤ a ∧ a < Config.fontBase + 80 then Config.font.getD (a - Config.fontBase) 0 else 0

/-- The content of cell `a`. -/
def Memory.read : Memory → Nat → Byte
  | [], a => resetByte a
  | (b, v) :: m, a => if b = a then v else Memory.read m a

/-- Drop what is listed for cell `a`. -/
def Memory.erase (m : Memory) (a : Nat) : Memory := m.filter fun c => c.1 != a

/-- List `v` for cell `a` at its place in the order. -/
def Memory.insert : Memory → Nat → Byte → Memory
  | [], a, v => [(a, v)]
  | (b, w) :: m, a, v => if a < b then (a, v) :: (b, w) :: m else (b, w) :: Memory.insert m a v

/-- Cell `a` set to `v`, every other cell as it was, the canonical form kept. -/
def Memory.write (m : Memory) (a : Nat) (v : Byte) : Memory :=
  if v = resetByte a then Memory.erase m a else Memory.insert (Memory.erase m a) a v

/-- Consecutive cells from `a` upward set to the bytes given, in ascending order (R64). -/
def Memory.writeAll : Memory → Nat → List Byte → Memory
  | m, _, [] => m
  | m, a, b :: bs => Memory.writeAll (Memory.write m a b) (a + 1) bs

/-- The canonical form, from address `lo` upward: addresses strictly rising and inside the address space, no
entry equal to the reset content of its cell. -/
def Memory.wfFrom : Nat → Memory → Bool
  | _, [] => true
  | lo, (a, v) :: m => decide (lo ≤ a) && decide (a ≤ Config.memTop) && v != resetByte a && Memory.wfFrom (a + 1) m

/-- The canonical form of memory. -/
def Memory.wf (m : Memory) : Bool := Memory.wfFrom 0 m

/-! ### Registers -/

/-- `V[x]` (00_scope.md R7). -/
def State.getV (s : State) (x : Reg) : Byte := s.V[x.toFin]

/-- `V[x] <- b`. -/
def State.setV (s : State) (x : Reg) (b : Byte) : State := { s with V := s.V.set x.toFin b }

/-- `V[j], V[j+1], … <- bytes` in ascending order; indexes above 15 do not exist and are passed over. -/
def setManyV : Vector Byte 16 → Nat → List Byte → Vector Byte 16
  | v, _, [] => v
  | v, j, b :: bs => setManyV (v.setIfInBounds j b) (j + 1) bs

/-- `I <- w`. -/
def State.setI (s : State) (w : Word) : State := { s with I := w }

/-- `pc <- w`; writing `pc` never faults (spec decision D17). -/
def State.setPc (s : State) (w : Word) : State := { s with pc := w }

/-- `DT <- b`. -/
def State.setDT (s : State) (b : Byte) : State := { s with DT := b }

/-- `ST <- b`. -/
def State.setST (s : State) (b : Byte) : State := { s with ST := b }

/-- The framebuffer replaced. -/
def State.setFb (s : State) (f : Screen) : State := { s with fb := f }

/-- `dirty <- b`. -/
def State.setDirty (s : State) (b : Bool) : State := { s with dirty := b }

/-- `key[k] <- b`. -/
def State.setKey (s : State) (k : Fin 16) (b : Bool) : State := { s with key := s.key.set k b }

/-- `key[k]`, the internal query `is_pressed` (60_exceptions.md R218). -/
def State.isPressed (s : State) (k : Fin 16) : Bool := s.key[k]

/-- The whole memory replaced. -/
def State.setMem (s : State) (m : Memory) : State := { s with mem := m }

/-- All of `V` replaced. -/
def State.setAllV (s : State) (v : Vector Byte 16) : State := { s with V := v }

/-- The remainder of the `run` port replaced. -/
def State.setRemainder (s : State) (q : Rat) : State := { s with remainder := q }

/-- One more byte drawn from the random source. -/
def State.countDraw (s : State) : State := { s with draws := s.draws + 1 }

/-- `pc <- a + 2`, before execution (40_control_flow.md R100). -/
def State.advance (s : State) : State := s.setPc (s.pc + 2)

/-- The skip law (R109): two bytes more when the condition holds. -/
def State.skipIf (s : State) (c : Bool) : State := if c then s.setPc (s.pc + 2) else s

/-! ### The call stack (10_state.md R25, R26) -/

/-- Save a return address: overflow when sixteen are saved already (40_control_flow.md R103). -/
def State.push (s : State) (w : Word) : Except Fault State :=
  if h : s.sp.val < 16 then
    .ok { s with stack := s.stack.set s.sp.val w h, sp := ⟨s.sp.val + 1, by omega⟩ }
  else .error (.stack .overflow)

/-- Take back the newest return address: underflow when none is saved (R101). The popped cell keeps its value. -/
def State.pop (s : State) : Except Fault (Word × State) :=
  if h : s.sp.val = 0 then .error (.stack .underflow)
  else
    .ok (s.stack[s.sp.val - 1]'(by omega), { s with sp := ⟨s.sp.val - 1, by omega⟩ })

/-! ### Memory accesses (20_memory.md R57 to R61) -/

/-- The content of one cell, as a plain query. -/
def State.byteAt (s : State) (a : Nat) : Byte := Memory.read s.mem a

/-- `MemRead(addr, 1)` (R57). -/
def State.memRead1 (s : State) (a : Nat) : Except Fault Byte :=
  if a > Config.memTop then .error (.address a) else .ok (s.byteAt a)

/-- `MemRead(addr, 2)`, used by the fetch only (R58): big-endian. -/
def State.memRead2 (s : State) (a : Nat) : Except Fault Word :=
  if a > Config.memTop then .error (.address a)
  else if a + 1 > Config.memTop then .error (.address (a + 1))
  else .ok (joinBytes (s.byteAt a) (s.byteAt (a + 1)))

/-- `MemWrite(addr, 1, v)` (R59). -/
def State.memWrite1 (s : State) (a : Nat) (v : Byte) : Except Fault State :=
  if a > Config.memTop then .error (.address a) else .ok (s.setMem (Memory.write s.mem a v))

/-- The address decoder's check of `count` consecutive cells from `base`, as a whole and before any effect
(R60, R61): addresses are natural numbers and never wrap; zero accesses check nothing. -/
def checkRange (base count : Nat) : Except Fault Unit :=
  if count = 0 ∨ base + (count - 1) ≤ Config.memTop then .ok ()
  else .error (.address (max base (Config.memTop + 1)))

/-- `count` bytes from `base` upward. -/
def State.readBytes (s : State) (base count : Nat) : Except Fault (List Byte) :=
  (checkRange base count).map fun _ => (List.range count).map fun k => s.byteAt (base + k)

/-- The bytes given stored from `base` upward. -/
def State.writeBytes (s : State) (base : Nat) (bytes : List Byte) : Except Fault State :=
  (checkRange base bytes.length).map fun _ => s.setMem (Memory.writeAll s.mem base bytes)

/-! ### The screen (42_display.md R142, R143) -/

/-- `fb[px][py]`. -/
def Screen.pixel (f : Screen) (px : Fin 64) (py : Fin 32) : Bool := f[py][px]

/-- `fb[px][py] <- b`. -/
def Screen.setPixel (f : Screen) (px : Fin 64) (py : Fin 32) (b : Bool) : Screen :=
  f.set py (f[py].set px b)

/-- `n mod 64`, a column: coordinates wrap, they are not clipped (R142). -/
def wrapX (n : Nat) : Fin 64 := ⟨n % 64, Nat.mod_lt n (by decide)⟩

/-- `n mod 32`, a row. -/
def wrapY (n : Nat) : Fin 32 := ⟨n % 32, Nat.mod_lt n (by decide)⟩

/-- Every pixel 0. -/
def Screen.blank : Screen := Vector.replicate 32 (Vector.replicate 64 false)

/-- One sprite bit `b` on one cell: XOR, and a collision when both were 1 (R143). -/
def xorPixel (px : Fin 64) (py : Fin 32) (b : Bool) (acc : Screen × Bool) : Screen × Bool :=
  let old := Screen.pixel acc.1 px py
  (Screen.setPixel acc.1 px py (old ^^ b), acc.2 || (old && b))

/-- One sprite row: column `c` is bit `7 - c` and lands on column `(x0 + c) mod 64` (R142). -/
def drawRow (x0 : Nat) (py : Fin 32) (b : Byte) (acc : Screen × Bool) : Screen × Bool :=
  (List.range 8).foldl (fun acc c => xorPixel (wrapX (x0 + c)) py (b.getLsbD (7 - c)) acc) acc

/-- The rows of a sprite from the top, the first on row `y mod 32`, each next one row lower with wrap (R142). -/
def drawRows (x0 : Nat) : Nat → List Byte → Screen × Bool → Screen × Bool
  | _, [], acc => acc
  | y, b :: bs, acc => drawRows x0 (y + 1) bs (drawRow x0 (wrapY y) b acc)

/-! ### Faults (60_exceptions.md R206) -/

/-- Taking a fault: of the state before the step only the latch changes. `pc` is still the offending
instruction's address, nothing is saved anywhere and control goes nowhere. There is no return from a fault
(R205: only a new `create` makes a machine without it). -/
def State.takeFault (s : State) (f : Fault) : State := { s with fault := some f }

/-- The end of a step that began in `s`: what it made, or the fault taken with all its writes discarded. -/
def settle (s : State) : Except Fault State → Host.Outcome State Fault Refusal
  | .ok t => .next t
  | .error f => .next (s.takeFault f)

/-- The execute phase of a step that began in `s`: the instruction's body runs with `pc` already advanced
(40_control_flow.md R100). -/
def execute (s : State) (body : State → Except Fault State) : Host.Outcome State Fault Refusal :=
  settle s (body s.advance)

/-- The code of a fault value (R200; spec decision D30). No instruction reads it. -/
def Fault.code : Fault → Nat
  | .address _ => 2
  | .stack _ => 3
  | .decode _ => 4
  | .invalidKey _ => 5

/-- The code of a load fault (R200). -/
def LoadFault.code (_ : LoadFault) : Nat := 1

/-! ### Fetch and decode (R100) -/

/-- The fetch and decode of a step: the address fault comes before the decode fault (R209). -/
def State.fetch (s : State) : Except Fault Instr :=
  match s.memRead2 s.pc.toNat with
  | .error f => .error f
  | .ok op =>
    match decodeWord op with
    | .ok i => .ok i
    | .error _ => .error (.decode op)

/-- `s` with a word placed where the next step fetches, high byte first. A word can only be placed where a fetch
can reach it, and a faulted machine fetches nothing: `pc` goes to the reset vector when it is not fetchable and
the latch is cleared (log entry 16). -/
def State.placeWord (s : State) (hi lo : Byte) : State :=
  let a := if s.pc.toNat + 1 ≤ Config.memTop then s.pc.toNat else Config.progBase
  { s with
    pc := BitVec.ofNat 16 a
    mem := Memory.writeAll s.mem a [hi, lo]
    fault := none }

end Sys2Proof.Machine
end

