-- ==== Sys2Proof/Machine/Flags.lean ====
section
/-! DEFINITION. The flag computations. The flag is `V[15]`; the value written is always 0 or 1
(10_state.md R21). Each computation answers the result and the flag. -/

namespace Sys2Proof.Machine

/-- Sum mod 256, and the carry: the exact sum exceeds 255 (41_alu.md R126). -/
def addWithCarry (a b : Byte) : Byte × Bool := (a + b, decide (a.toNat + b.toNat > 255))

/-- Difference mod 256, and no-borrow: the minuend is at least the subtrahend (R127, R129). -/
def subNoBorrow (a b : Byte) : Byte × Bool := (a - b, decide (a.toNat ≥ b.toNat))

/-- Right by one with bit 7 zero, and the bit shifted out (R128). -/
def shiftRightOne (a : Byte) : Byte × Bool := (a >>> 1, a.getLsbD 0)

/-- Left by one with bit 0 zero, and the bit shifted out (R130). -/
def shiftLeftOne (a : Byte) : Byte × Bool := (a <<< 1, a.getLsbD 7)

/-- The flag as the byte written to VF. -/
def flagByte (f : Bool) : Byte := if f then 1 else 0

/-- `V[15] <- 1 if f else 0`. -/
def State.setFlag (s : State) (f : Bool) : State := s.setV 15 (flagByte f)

/-- The result to `V[x]`, then the flag to `V[15]`: with `x = 15` the flag remains
(41_alu.md R132; spec decision D7; log entry 9). -/
def State.setResultAndFlag (s : State) (x : Reg) (r : Byte × Bool) : State := (s.setV x r.1).setFlag r.2

end Sys2Proof.Machine
end

