-- ==== Sys2Proof/Machine/Operands.lean ====
section
/-! DEFINITION. The operand forms: how an instruction's fields and the state give the values it works on
(30_encoding.md R83; 44_index_memory.md R166). -/

namespace Sys2Proof.Machine

/-- `zext_16(nnn)`. -/
def zext12 (nnn : Addr12) : Word := nnn.setWidth 16

/-- `zext_16(v)` of a byte. -/
def zext8 (v : Byte) : Word := v.setWidth 16

/-- The effective address of a data access, `I + k` as a natural number, never wrapping
(44_index_memory.md R166). -/
def State.dataAddress (s : State) (k : Nat) : Nat := s.I.toNat + k

/-- The register a shift reads: `x`, or `y` with `QUIRK_SHIFT_VY` (41_alu.md R128, R130). -/
def shiftSource (quirk : Bool) (x y : Reg) : Reg := if quirk then y else x

/-- The register a jump with offset adds: V0, or with `QUIRK_JUMP_VX` the one the top nibble of the address
names (40_control_flow.md R108, R110). -/
def jumpOffsetReg (quirk : Bool) (nnn : Addr12) : Reg := if quirk then nnn.extractLsb' 8 4 else 0

/-- The target of a jump with offset: the full sum, not reduced to 12 bits (R108; spec decision D17). -/
def jumpOffsetTarget (quirk : Bool) (nnn : Addr12) (s : State) : Word :=
  zext12 nnn + zext8 (s.getV (jumpOffsetReg quirk nnn))

/-- `v[3:0]` as a key index. -/
def lowNibbleKey (v : Byte) : Fin 16 := ⟨v.toNat % 16, Nat.mod_lt _ (by decide)⟩

/-- The key a key instruction tests (43_keypad_timers.md R156). -/
def keyIndex (mode : Config.KeyIndexMode) (v : Byte) : Except Fault (Fin 16) :=
  if v.toNat > 15 then
    match mode with
    | .fault => .error (.invalidKey v.toNat)
    | .mask => .ok (lowNibbleKey v)
  else .ok (lowNibbleKey v)

/-- The smallest pressed key, if any (R153; spec decision D13). -/
def State.lowestKey (s : State) : Option (Fin 16) := (List.finRange 16).find? fun k => s.isPressed k

/-- The address of the glyph for the low nibble of `v` (44_index_memory.md R162). -/
def fontAddress (v : Byte) : Word := BitVec.ofNat 16 (Config.fontBase + 5 * (v.toNat % 16))

/-- Hundreds, tens, ones (44_index_memory.md R163; spec decision D11). -/
def bcdDigits (v : Byte) : List Byte :=
  [BitVec.ofNat 8 (v.toNat / 100), BitVec.ofNat 8 (v.toNat / 10 % 10), BitVec.ofNat 8 (v.toNat % 10)]

/-- `V[0]` to `V[x]`, in order (R164). -/
def State.lowRegs (s : State) (x : Reg) : List Byte :=
  (List.range (x.toNat + 1)).map fun j => s.getV (BitVec.ofNat 4 j)

/-- The column a sprite begins at (42_display.md R141). -/
def originX (v : Byte) : Nat := v.toNat % 64

/-- The row a sprite begins at. -/
def originY (v : Byte) : Nat := v.toNat % 32

/-- `Random()`: the next byte of the source, one draw counted (60_exceptions.md R219; log entry 2). -/
def State.random (s : State) : Byte × State := (Config.randomByte s.draws, s.countDraw)

end Sys2Proof.Machine
end

