-- ==== Sys2Proof/Machine/Alu.lean ====
section
/-! DEFINITION. Register load, arithmetic, logic, shift and random instructions (41_alu.md). All read their
sources before writing (R132), leave `pc` at the address after the instruction and can raise no fault. -/

namespace Sys2Proof.Machine

/-- 6xkk `LD Vx, kk` (R120). -/
def execLdImm (x : Reg) (kk : Byte) (s : State) : Host.Outcome State Fault Refusal :=
  execute s fun t => .ok (t.setV x kk)

/-- 7xkk `ADD Vx, kk` (R121): wraps, VF is not written. -/
def execAddImm (x : Reg) (kk : Byte) (s : State) : Host.Outcome State Fault Refusal :=
  execute s fun t => .ok (t.setV x (t.getV x + kk))

/-- 8xy0 `LD Vx, Vy` (R122). -/
def execLdReg (x y : Reg) (s : State) : Host.Outcome State Fault Refusal :=
  execute s fun t => .ok (t.setV x (t.getV y))

/-- 8xy1 `OR Vx, Vy` (R123): VF is not written. -/
def execOrReg (x y : Reg) (s : State) : Host.Outcome State Fault Refusal :=
  execute s fun t => .ok (t.setV x (t.getV x ||| t.getV y))

/-- 8xy2 `AND Vx, Vy` (R124): VF is not written. -/
def execAndReg (x y : Reg) (s : State) : Host.Outcome State Fault Refusal :=
  execute s fun t => .ok (t.setV x (t.getV x &&& t.getV y))

/-- 8xy3 `XOR Vx, Vy` (R125): VF is not written. -/
def execXorReg (x y : Reg) (s : State) : Host.Outcome State Fault Refusal :=
  execute s fun t => .ok (t.setV x (t.getV x ^^^ t.getV y))

/-- 8xy4 `ADD Vx, Vy` (R126): VF is the carry. -/
def execAddReg (x y : Reg) (s : State) : Host.Outcome State Fault Refusal :=
  execute s fun t => .ok (t.setResultAndFlag x (addWithCarry (t.getV x) (t.getV y)))

/-- 8xy5 `SUB Vx, Vy` (R127): the minuend is `V[x]`. -/
def execSubReg (x y : Reg) (s : State) : Host.Outcome State Fault Refusal :=
  execute s fun t => .ok (t.setResultAndFlag x (subNoBorrow (t.getV x) (t.getV y)))

/-- 8xy6 `SHR Vx` (R128): `y` is ignored while `QUIRK_SHIFT_VY` is false. -/
def execShr (x y : Reg) (s : State) : Host.Outcome State Fault Refusal :=
  execute s fun t => .ok (t.setResultAndFlag x (shiftRightOne (t.getV (shiftSource Config.quirkShiftVy x y))))

/-- 8xy7 `SUBN Vx, Vy` (R129): the minuend is `V[y]`. -/
def execSubnReg (x y : Reg) (s : State) : Host.Outcome State Fault Refusal :=
  execute s fun t => .ok (t.setResultAndFlag x (subNoBorrow (t.getV y) (t.getV x)))

/-- 8xyE `SHL Vx` (R130): `y` is ignored while `QUIRK_SHIFT_VY` is false. -/
def execShl (x y : Reg) (s : State) : Host.Outcome State Fault Refusal :=
  execute s fun t => .ok (t.setResultAndFlag x (shiftLeftOne (t.getV (shiftSource Config.quirkShiftVy x y))))

/-- What `RND Vx, kk` makes of the byte `r` drawn (R131). -/
def State.maskRandom (s : State) (x : Reg) (kk r : Byte) : State := s.setV x (r &&& kk)

/-- Cxkk `RND Vx, kk` (R131): one byte is drawn, a free value (60_exceptions.md R219). -/
def execRnd (x : Reg) (kk : Byte) (s : State) : Host.Outcome State Fault Refusal :=
  execute s fun t => .ok (t.random.2.maskRandom x kk t.random.1)

end Sys2Proof.Machine
end

