-- ==== Sys2Proof/Machine/Control.lean ====
section
/-! DEFINITION. The control-transfer instructions (40_control_flow.md). Each body runs with `pc` already
advanced, so `pc` is the address after the instruction (R100). -/

namespace Sys2Proof.Machine

/-- 00EE `RET` (R101). -/
def execRet (s : State) : Host.Outcome State Fault Refusal :=
  execute s fun t => t.pop.map fun p => p.2.setPc p.1

/-- 1nnn `JP nnn` (R102). -/
def execJp (nnn : Addr12) (s : State) : Host.Outcome State Fault Refusal :=
  execute s fun t => .ok (t.setPc (zext12 nnn))

/-- 2nnn `CALL nnn` (R103): the address after the CALL is saved. -/
def execCall (nnn : Addr12) (s : State) : Host.Outcome State Fault Refusal :=
  execute s fun t => (t.push t.pc).map fun u => u.setPc (zext12 nnn)

/-- 3xkk `SE Vx, kk` (R104). -/
def execSeImm (x : Reg) (kk : Byte) (s : State) : Host.Outcome State Fault Refusal :=
  execute s fun t => .ok (t.skipIf (t.getV x == kk))

/-- 4xkk `SNE Vx, kk` (R105). -/
def execSneImm (x : Reg) (kk : Byte) (s : State) : Host.Outcome State Fault Refusal :=
  execute s fun t => .ok (t.skipIf (t.getV x != kk))

/-- 5xy0 `SE Vx, Vy` (R106). -/
def execSeReg (x y : Reg) (s : State) : Host.Outcome State Fault Refusal :=
  execute s fun t => .ok (t.skipIf (t.getV x == t.getV y))

/-- 9xy0 `SNE Vx, Vy` (R107). -/
def execSneReg (x y : Reg) (s : State) : Host.Outcome State Fault Refusal :=
  execute s fun t => .ok (t.skipIf (t.getV x != t.getV y))

/-- Bnnn `JP V0, nnn` (R108; with `QUIRK_JUMP_VX` R110): the full sum goes to `pc`, the index register plays no
part (conflict C2). -/
def execJpV0 (nnn : Addr12) (s : State) : Host.Outcome State Fault Refusal :=
  execute s fun t => .ok (t.setPc (jumpOffsetTarget Config.quirkJumpVx nnn t))

end Sys2Proof.Machine
end

