-- ==== Sys2Proof/Machine/Display.lean ====
section
/-! DEFINITION. The display instructions (42_display.md). -/

namespace Sys2Proof.Machine

/-- 00E0 `CLS` (R140): every pixel 0, `dirty` set; VF is not written. -/
def execCls (s : State) : Host.Outcome State Fault Refusal :=
  execute s fun t => .ok ((t.setFb Screen.blank).setDirty true)

/-- Drawing the sprite bytes `b` at the coordinates in `V[x]`, `V[y]` (R141): coordinates are read before VF is
written, the flag is the collision of this draw alone (R143), `dirty` is set whatever was drawn. -/
def State.drawSprite (t : State) (x y : Reg) (b : List Byte) : State :=
  let d := drawRows (originX (t.getV x)) (originY (t.getV y)) b (t.fb, false)
  ((t.setFb d.1).setFlag d.2).setDirty true

/-- Dxyn `DRW Vx, Vy, n` (R141): all sprite bytes are read first, so a draw that faults writes nothing; with
`n = 0` nothing is read or drawn (spec decision D14). -/
def execDrw (x y : Reg) (n : Nibble) (s : State) : Host.Outcome State Fault Refusal :=
  execute s fun t => (t.readBytes (t.dataAddress 0) n.toNat).map fun b => t.drawSprite x y b

end Sys2Proof.Machine
end

