-- ==== Sys2Proof/Machine/Index.lean ====
section
/-! DEFINITION. The index-register and memory-transfer instructions (44_index_memory.md). Every data access is at
`I + k` (R166); the range is checked whole before any write (20_memory.md R61); `I` is changed by the first three
only. -/

namespace Sys2Proof.Machine

/-- Annn `LD I, nnn` (R160). -/
def execLdI (nnn : Addr12) (s : State) : Host.Outcome State Fault Refusal :=
  execute s fun t => .ok (t.setI (zext12 nnn))

/-- Fx1E `ADD I, Vx` (R161): wraps at 16 bits, VF is not written. -/
def execAddI (x : Reg) (s : State) : Host.Outcome State Fault Refusal :=
  execute s fun t => .ok (t.setI (t.I + zext8 (t.getV x)))

/-- Fx29 `LD F, Vx` (R162): only computes the address, reads no memory. -/
def execLdF (x : Reg) (s : State) : Host.Outcome State Fault Refusal :=
  execute s fun t => .ok (t.setI (fontAddress (t.getV x)))

/-- Fx33 `LD B, Vx` (R163). -/
def execLdB (x : Reg) (s : State) : Host.Outcome State Fault Refusal :=
  execute s fun t => t.writeBytes (t.dataAddress 0) (bcdDigits (t.getV x))

/-- Fx55 `LD [I], Vx` (R164). -/
def execStoreRegs (x : Reg) (s : State) : Host.Outcome State Fault Refusal :=
  execute s fun t => t.writeBytes (t.dataAddress 0) (t.lowRegs x)

/-- Fx65 `LD Vx, [I]` (R165). -/
def execLoadRegs (x : Reg) (s : State) : Host.Outcome State Fault Refusal :=
  execute s fun t =>
    (t.readBytes (t.dataAddress 0) (x.toNat + 1)).map fun b => t.setAllV (setManyV t.V 0 b)

end Sys2Proof.Machine
end

