-- ==== Sys2Proof/Machine/Keypad.lean ====
section
/-! DEFINITION. The keypad and timer instructions (43_keypad_timers.md). -/

namespace Sys2Proof.Machine

/-- Ex9E `SKP Vx` (R150): the latch is read as it stands; an index above 15 is as R156 says. -/
def execSkp (x : Reg) (s : State) : Host.Outcome State Fault Refusal :=
  execute s fun t => (keyIndex Config.keyIndexMode (t.getV x)).map fun k => t.skipIf (t.isPressed k)

/-- ExA1 `SKNP Vx` (R151). -/
def execSknp (x : Reg) (s : State) : Host.Outcome State Fault Refusal :=
  execute s fun t => (keyIndex Config.keyIndexMode (t.getV x)).map fun k => t.skipIf (!t.isPressed k)

/-- Fx07 `LD Vx, DT` (R152). -/
def execLdVxDt (x : Reg) (s : State) : Host.Outcome State Fault Refusal :=
  execute s fun t => .ok (t.setV x t.DT)

/-- Fx0A `LD Vx, K` (R153): the smallest pressed key, a level test (conflict C3); with no key down `pc` goes back
to the instruction, which is the whole of waiting. -/
def execLdVxK (x : Reg) (s : State) : Host.Outcome State Fault Refusal :=
  execute s fun t =>
    match t.lowestKey with
    | some k => .ok (t.setV x (BitVec.ofNat 8 k.val))
    | none => .ok (t.setPc (t.pc - 2))

/-- Fx15 `LD DT, Vx` (R154). -/
def execLdDtVx (x : Reg) (s : State) : Host.Outcome State Fault Refusal :=
  execute s fun t => .ok (t.setDT (t.getV x))

/-- Fx18 `LD ST, Vx` (R155). -/
def execLdStVx (x : Reg) (s : State) : Host.Outcome State Fault Refusal :=
  execute s fun t => .ok (t.setST (t.getV x))

end Sys2Proof.Machine
end

