-- ==== Sys2Proof/Machine/Step.lean ====
section
/-! DEFINITION. One step of the CPU (40_control_flow.md R100). -/

namespace Sys2Proof.Machine

/-- `Step()`. A faulted machine does nothing (60_exceptions.md R205). A fetch or decode that raises takes its
fault with nothing else changed (R206). Otherwise the instruction at `pc` executes; its meaning begins by
advancing `pc` by 2 (`execute` in Machine/Ops.lean). -/
def step (s : State) : Host.Outcome State Fault Refusal :=
  match s.fault with
  | some _ => .next s
  | none =>
    match s.fetch with
    | .error f => .next (s.takeFault f)
    | .ok i => exec i s

/-- `s` with the instruction whose bits are `w` (numbered as spec/opcode_table.json numbers them) placed where
`step` fetches next. -/
def State.withFetchWord (s : State) (nbits w : Nat) : State :=
  match tableBytes nbits w with
  | [hi, lo] => s.placeWord hi lo
  | _ => s

end Sys2Proof.Machine
end

