-- ==== Sys2Proof/Machine/Ports.lean ====
section
/-! DEFINITION. Everything the host can do to the machine (60_exceptions.md R224), each operation atomic, and the
sequence of operations a host chooses (R226). The order is an argument, never fixed here (spec decision D24);
overlapping operations have no transition (20_memory.md R67, 70_reset_and_hazards.md R255; log entry 14). -/

namespace Sys2Proof.Machine

/-! ### `create` (70_reset_and_hazards.md R240 to R242) -/

/-- The reset state with a program image from `PROG_BASE` upward. -/
def State.loaded (rom : List Byte) : State :=
  State.reset.setMem (Memory.writeAll State.reset.mem Config.progBase rom)

/-- `create(rom)`: the only reset. A bad image makes no machine. -/
def create (rom : List Byte) : Except LoadFault State :=
  if rom.length = 0 then .error .empty
  else if rom.length > Config.progMax then .error .tooLarge
  else .ok (State.loaded rom)

/-! ### The timer tick -/

/-- One timer one tick later: never below 0. -/
def tickDown (b : Byte) : Byte := if b.toNat > 0 then b - 1 else 0

/-- `advance_timers()` (60_exceptions.md R214). -/
def State.advanceTimers (s : State) : State := (s.setDT (tickDown s.DT)).setST (tickDown s.ST)

/-! ### The keypad -/

/-- The key port of the CORE and the host-side check in front of it (R207, spec decision D21): an index above 15
is answered by an error and changes nothing, the fault latch included. DESIGN CHOICE (log entry 20): the spec leaves
open how wide a number that check accepts; here it accepts any natural number, and the error names it as given. -/
def State.keyEvent (s : State) (k : Nat) (down : Bool) : Except Fault State :=
  if h : k < 16 then .ok (s.setKey ⟨k, h⟩ down) else .error (.invalidKey k)

/-- `press_key(k)` (R217). -/
def State.pressKey (s : State) (k : Nat) : Except Fault State := s.keyEvent k true

/-- `release_key(k)` (R217). -/
def State.releaseKey (s : State) (k : Nat) : Except Fault State := s.keyEvent k false

/-! ### The display and the timer queries -/

/-- `display_changed()` (R220): the old flag, and the flag cleared. -/
def State.displayChanged (s : State) : Bool × State := (s.dirty, s.setDirty false)

/-- A pixel as the byte the host sees. -/
def pixelByte (b : Bool) : Byte := if b then 1 else 0

/-- `framebuffer_view()` (R222): 2048 bytes, byte `64 * y + x` for pixel `(x, y)` (spec decision D15). -/
def State.framebufferView (s : State) : List Byte :=
  s.fb.toList.flatMap fun row => row.toList.map pixelByte

/-- `delay_timer_value()` (R223). -/
def State.delayTimerValue (s : State) : Byte := s.DT

/-- `sound_timer_value()` (R223). -/
def State.soundTimerValue (s : State) : Byte := s.ST

/-! ### The run port (70_reset_and_hazards.md R246 to R248) -/

/-- How many steps a `run(elapsed)` makes and what it carries on (R246). `elapsed` and the rate are non-negative
rationals (log entry 15). -/
def budget (p : Config.Pacing) (remainder elapsed : Rat) : Nat × Rat :=
  let t := elapsed * p.ips + (if p.carry then remainder else 0)
  let n := t.floor.toNat
  (n, if p.carry then t - n else 0)

/-- The budgets of a sequence of `run` calls: all their steps together, and the remainder at the end (R247). -/
def budgetAll (p : Config.Pacing) : Rat → List Rat → Nat × Rat
  | remainder, [] => (0, remainder)
  | remainder, e :: es =>
    let b := budget p remainder e
    let r := budgetAll p b.2 es
    (b.1 + r.1, r.2)

/-- `repeat N times: Step()`, stopping at the first fault (R246, R248). The fault a run reports is the latch of
the state it ends in. -/
def runSteps : Nat → State → Host.Outcome State Fault Refusal
  | 0, s => .next s
  | n + 1, s =>
    match s.fault with
    | some _ => .next s
    | none =>
      match step s with
      | .next t => runSteps n t
      | .fault f => .fault f
      | .refused r => .refused r

/-- `run(elapsed)`: on a faulted machine nothing happens (60_exceptions.md R205, R228). -/
def runFor (p : Config.Pacing) (elapsed : Rat) (s : State) : Host.Outcome State Fault Refusal :=
  match s.fault with
  | some _ => .next s
  | none =>
    let b := budget p s.remainder elapsed
    runSteps b.1 (s.setRemainder b.2)

/-! ### All of them, and a host's schedule -/

/-- One operation of the host on a machine (R224). `create` is not among them: it makes a new machine. -/
inductive HostOp where
  | pressKey (k : Nat)
  | releaseKey (k : Nat)
  | advanceTimers
  /-- `run` with the number of steps as its argument (spec decision D23). -/
  | runSteps (n : Nat)
  /-- `run(elapsed)`. -/
  | run (p : Config.Pacing) (elapsed : Rat)
  | displayChanged
  | framebufferView
  | delayTimerValue
  | soundTimerValue
  deriving DecidableEq, Repr

/-- What the host gets back (R224). -/
inductive Reply where
  | nothing
  | invalidInput (f : Fault)
  | flag (b : Bool)
  | byte (b : Byte)
  | bytes (l : List Byte)
  /-- The result of a `run`: success, or the fault. -/
  | ran (f : Option Fault)
  deriving DecidableEq, Repr

/-- The reply and the state after a key event. -/
def afterKey (s : State) : Except Fault State → State × Reply
  | .ok t => (t, .nothing)
  | .error f => (s, .invalidInput f)

/-- The reply and the state after a `run`. Every step answers a next state, so the other two cases do not
arise. -/
def afterRun (s : State) : Host.Outcome State Fault Refusal → State × Reply
  | .next t => (t, .ran t.fault)
  | .fault f => (s, .ran (some f))
  | .refused _ => (s, .ran s.fault)

/-- One host operation. -/
def hostOp (s : State) : HostOp → State × Reply
  | .pressKey k => afterKey s (s.pressKey k)
  | .releaseKey k => afterKey s (s.releaseKey k)
  | .advanceTimers => (s.advanceTimers, .nothing)
  | .runSteps n => afterRun s (runSteps n s)
  | .run p e => afterRun s (runFor p e s)
  | .displayChanged => (s.displayChanged.2, .flag s.displayChanged.1)
  | .framebufferView => (s, .bytes s.framebufferView)
  | .delayTimerValue => (s, .byte s.delayTimerValue)
  | .soundTimerValue => (s, .byte s.soundTimerValue)

/-- The machine after a host's whole schedule, with every reply in order (R226). -/
def schedule : List HostOp → State → State × List Reply
  | [], s => (s, [])
  | op :: ops, s =>
    let r := hostOp s op
    let rest := schedule ops r.1
    (rest.1, r.2 :: rest.2)

end Sys2Proof.Machine
end

