-- ==== Sys2Proof/Safety.lean ====
section
/-! DEFINITION. The terms claims are stated in: what a change leaves alone (frames), the invariant of the machine,
and which schedules of a host are in the ports' domain. -/

namespace Sys2Proof.Machine

/-! ### Frames -/

/-- The pieces of state a frame speaks of: all of State. -/
inductive Part where
  | regs | index | pc | stack | delay | sound | screen | dirty | keys | memory | fault | remainder | draws
  deriving DecidableEq, Repr

/-- `t` has the same content as `s` in one piece of state; memory and screen cell by cell. -/
def samePart (s t : State) : Part → Prop
  | .regs => ∀ r, t.getV r = s.getV r
  | .index => t.I = s.I
  | .pc => t.pc = s.pc
  | .stack => t.sp = s.sp ∧ t.stack = s.stack
  | .delay => t.DT = s.DT
  | .sound => t.ST = s.ST
  | .screen => ∀ px py, t.fb.pixel px py = s.fb.pixel px py
  | .dirty => t.dirty = s.dirty
  | .keys => ∀ k, t.isPressed k = s.isPressed k
  | .memory => ∀ a, t.byteAt a = s.byteAt a
  | .fault => t.fault = s.fault
  | .remainder => t.remainder = s.remainder
  | .draws => t.draws = s.draws

/-- From `s` to `t` nothing changes outside the pieces listed. -/
def onlyChanges (ps : List Part) (s t : State) : Prop := ∀ p, p ∉ ps → samePart s t p

/-- Every register outside the list is unchanged. -/
def regsKeptBut (rs : List Reg) (s t : State) : Prop := ∀ r, r ∉ rs → t.getV r = s.getV r

/-- Every memory cell outside the `n` cells from `base` is unchanged. -/
def memKeptOutside (base n : Nat) (s t : State) : Prop :=
  ∀ a, ¬(base ≤ a ∧ a < base + n) → t.byteAt a = s.byteAt a

/-! ### Sprites, pixel by pixel (42_display.md R142) -/

/-- The bit of the sprite `b`, drawn from column `x0` and row `y0`, that lands on pixel `(px, py)`: the pixel's
distance from the origin, counted rightward and downward with wrap, is its place in the sprite; 0 where no sprite
pixel lands. -/
def spriteBit (x0 y0 : Nat) (b : List Byte) (px : Fin 64) (py : Fin 32) : Bool :=
  let c := (px.val + 64 - x0 % 64) % 64
  let r := (py.val + 32 - y0 % 32) % 32
  decide (c < 8) && (b.getD r 0).getLsbD (7 - c) && decide (r < b.length)

/-- Some pixel is 1 where a 1 bit of the sprite lands (R143). -/
def collides (f : Screen) (x0 y0 : Nat) (b : List Byte) : Prop :=
  ∃ px py, f.pixel px py = true ∧ spriteBit x0 y0 b px py = true

/-- The bytes a draw of `n` rows reads. -/
def State.spriteBytes (s : State) (n : Nibble) : List Byte :=
  (List.range n.toNat).map fun k => s.byteAt (s.I.toNat + k)

/-! ### The invariant -/

/-- A fault value that a step can record: an address outside the address space, an opcode of no row, a key index a
byte can hold and the keypad cannot (60_exceptions.md R200). -/
def Fault.sound : Fault → Prop
  | .address a => a > Config.memTop
  | .stack _ => True
  | .decode op => ∀ i, decodeWord op ≠ .ok i
  | .invalidKey k => 15 < k ∧ k < 256

/-- What every reachable state has: memory in canonical form, `pc` at most 0x10FE (10_state.md R24, R36), every
stack cell at most 0x1000 (40_control_flow.md R101, R103), a recorded fault that can be (60_exceptions.md R200),
and a remainder below one instruction (70_reset_and_hazards.md R247). -/
structure State.Inv (s : State) : Prop where
  mem : Memory.wf s.mem = true
  pc : s.pc.toNat ≤ 0x10FE
  stack : ∀ j : Fin 16, s.stack[j].toNat ≤ 0x1000
  fault : ∀ f, s.fault = some f → f.sound
  remainder : 0 ≤ s.remainder ∧ s.remainder < 1

/-! ### Schedules -/

/-- A host operation inside its port's domain: a non-negative duration at a non-negative rate
(60_exceptions.md R224). -/
def HostOp.inDomain : HostOp → Prop
  | .run p e => 0 ≤ p.ips ∧ 0 ≤ e
  | _ => True

/-- A machine that `create` made and a host has driven since. -/
def Reachable (s : State) : Prop :=
  ∃ rom ops s0, create rom = .ok s0 ∧ (∀ op ∈ ops, op.inDomain) ∧ (schedule ops s0).1 = s

end Sys2Proof.Machine
end

