-- ==== Sys2Proof/Certificates/Slice0/Obligations.lean ====
section
/-! DEFINITION. The statements for the provers. Each docstring names the rule of spec/ it formalises; a clause that
rests on one of the spec's own decisions (D<n> of 92_eei_decisions.md), on its general knowledge (G<n> of
93_implementation_defined.md) or on a choice of the model names that and its log entry. -/

open Sys2Proof Sys2Proof.Machine

/-! ### Encoding (30_encoding.md) -/

/-- Every instruction, with every operand at every value its field admits, is what its own opcode decodes to, as a
word and as the two bytes in memory (R80 to R84). The patterns of 26 rows are the spec's general knowledge, G1
(log entry 6). -/
def Obligations.DecodeInvertsEncode : Prop :=
  ∀ i : Instr, decodeWord (encode i) = .ok i ∧ decodeBytes (encodeBytes i) = .ok i

/-- An opcode that decodes is the encoding of what it decodes to, so no bit of a legal opcode is lost: the ignored
`y` of 8xy6 and 8xyE is kept (R84, R90). -/
def Obligations.EncodeInvertsDecode : Prop :=
  ∀ (op : Word) (i : Instr), decodeWord op = .ok i → encode i = op

/-- The decoder accepts exactly the opcodes that select a row of the table, and every row an accepted opcode
selects is the row of the instruction decoded: no two rows overlap (R84). -/
def Obligations.DecodesExactlyTheTableRows : Prop :=
  ∀ op : Word,
    ((∃ i, decodeWord op = .ok i) ↔ ∃ row ∈ opcodeTable, row.selects op = true) ∧
    ∀ i, decodeWord op = .ok i → ∀ row ∈ opcodeTable, row.selects op = true → row = tableRow i

/-- The illegal opcodes are exactly those of R89's table, by family and low nibble or low byte. -/
def Obligations.IllegalOpcodesAreThoseListed : Prop :=
  ∀ op : Word,
    decodeWord op = .error (.illegal op) ↔
      (op.toNat / 0x1000 = 0x0 ∧ op.toNat ≠ 0x00E0 ∧ op.toNat ≠ 0x00EE) ∨
      (op.toNat / 0x1000 = 0x5 ∧ op.toNat % 0x10 ≠ 0) ∨
      (op.toNat / 0x1000 = 0x8 ∧ op.toNat % 0x10 ∈ [0x8, 0x9, 0xA, 0xB, 0xC, 0xD, 0xF]) ∨
      (op.toNat / 0x1000 = 0x9 ∧ op.toNat % 0x10 ≠ 0) ∨
      (op.toNat / 0x1000 = 0xE ∧ op.toNat % 0x100 ∉ [0x9E, 0xA1]) ∨
      (op.toNat / 0x1000 = 0xF ∧
        op.toNat % 0x100 ∉ [0x07, 0x0A, 0x15, 0x18, 0x1E, 0x29, 0x33, 0x55, 0x65])

/-- Words the source prints, with the fields R81 reads in them: 00E0, 1228, 6105, 6007, 8014, D001; and 8AB6 and
F30A of the spec's vectors. -/
def Obligations.PrintedWordsDecode : Prop :=
  decodeWord 0x00E0 = .ok .cls ∧ decodeWord 0x1228 = .ok (.jp 0x228) ∧
  decodeWord 0x6105 = .ok (.ldImm 1 5) ∧ decodeWord 0x6007 = .ok (.ldImm 0 7) ∧
  decodeWord 0x8014 = .ok (.addReg 0 1) ∧ decodeWord 0xD001 = .ok (.drw 0 0 1) ∧
  decodeWord 0x8AB6 = .ok (.shr 0xA 0xB) ∧ decodeWord 0xF30A = .ok (.ldVxK 3)

/-! ### The step (40_control_flow.md R100) -/

/-- A step runs the instruction that the two bytes at `pc` decode to: on a machine with no fault, `step` is `exec`
of it, and `exec` itself makes the advance of `pc` (which every statement below shows). The other cases: a faulted
machine does nothing; a fetch outside memory and an illegal opcode take their fault, in that priority (R209). -/
def Obligations.StepRunsTheDecodedInstruction : Prop :=
  ∀ s : State,
    (∀ f, s.fault = some f → step s = .next s) ∧
    (s.fault = none → s.pc.toNat = 0xFFF → step s = .next (s.takeFault (.address 0x1000))) ∧
    (s.fault = none → s.pc.toNat > 0xFFF → step s = .next (s.takeFault (.address s.pc.toNat))) ∧
    (s.fault = none → s.pc.toNat < 0xFFF →
      (∀ i, decodeBytes [s.byteAt s.pc.toNat, s.byteAt (s.pc.toNat + 1)] = .ok i → step s = exec i s) ∧
      (∀ e, decodeBytes [s.byteAt s.pc.toNat, s.byteAt (s.pc.toNat + 1)] = .error e →
        step s = .next (s.takeFault (.decode (joinBytes (s.byteAt s.pc.toNat) (s.byteAt (s.pc.toNat + 1)))))))

/-- From every state a step answers a next state: nothing is refused and nothing is outside the model, for the fault
entry of 60_exceptions.md R206 and the terminal state of R205 are states too (log entry 1). -/
def Obligations.EveryStepAnswersANextState : Prop :=
  ∀ s : State, ∃ t, step s = .next t

/-- A raising instruction has no effect at all but the latch: whatever instruction leaves the latch changed has left
everything else, `pc` included, as it was (60_exceptions.md R206; spec decision D16, log entry 11). -/
def Obligations.ARaisingInstructionChangesOnlyTheLatch : Prop :=
  ∀ (i : Instr) (s t : State), exec i s = .next t → t.fault ≠ s.fault → ∃ f, t = s.takeFault f

/-- Which instruction raises which fault, and when (60_exceptions.md R202, R203, R208, R209; 20_memory.md R61): RET
and CALL on the depth of the stack, the four data accesses on their range, with the first address outside as
payload, the two key skips on an index above 15 (D12, log entry 8), and no other instruction. A range of no bytes
is in range (D14, log entry 10). -/
def Obligations.FaultsOfEveryInstruction : Prop :=
  ∀ (i : Instr) (s t : State), s.fault = none → exec i s = .next t →
    t.fault = match i with
      | .ret => if s.sp.val = 0 then some (.stack .underflow) else none
      | .call _ => if s.sp.val = 16 then some (.stack .overflow) else none
      | .drw _ _ n =>
        if n.toNat ≥ 1 ∧ s.I.toNat + n.toNat - 1 > 0xFFF then some (.address (max s.I.toNat 0x1000)) else none
      | .ldB _ => if s.I.toNat + 2 > 0xFFF then some (.address (max s.I.toNat 0x1000)) else none
      | .storeRegs x => if s.I.toNat + x.toNat > 0xFFF then some (.address (max s.I.toNat 0x1000)) else none
      | .loadRegs x => if s.I.toNat + x.toNat > 0xFFF then some (.address (max s.I.toNat 0x1000)) else none
      | .skp x => if (s.getV x).toNat > 15 then some (.invalidKey (s.getV x).toNat) else none
      | .sknp x => if (s.getV x).toNat > 15 then some (.invalidKey (s.getV x).toNat) else none
      | _ => none

/-! ### Invariants -/

/-- The invariant holds right after reset (10_state.md R34). That memory has a canonical form is the model's choice
(log entry 18). -/
def Obligations.ResetMeetsTheInvariant : Prop := State.reset.Inv

/-- Every step keeps the invariant: memory in canonical form, `pc` at most 0x10FE (so it never wraps), stack cells
at most 0x1000, a recorded fault that can be, a remainder below one (10_state.md R24, R36; 60_exceptions.md R200;
70_reset_and_hazards.md R247). That memory has a canonical form is the model's choice (log entry 18). -/
def Obligations.EveryStepKeepsTheInvariant : Prop :=
  ∀ s t : State, s.Inv → step s = .next t → t.Inv

/-- Every machine that `create` made and a host has driven, by any sequence of steps, ticks, key events and reads
inside the ports' domains, meets the invariant (60_exceptions.md R224, R226). That memory has a canonical form is the
model's choice (log entry 18). -/
def Obligations.EveryReachableMachineMeetsTheInvariant : Prop :=
  ∀ s : State, Reachable s → s.Inv

/-! ### Rules of the whole machine -/

/-- The faulted state is terminal (60_exceptions.md R205): a step does nothing, no host operation clears the latch or
changes its value, and a run executes nothing and reports the same fault again. -/
def Obligations.AFaultedMachineStaysFaulted : Prop :=
  ∀ (s : State) (f : Fault), s.fault = some f →
    step s = .next s ∧
    (∀ op, (hostOp s op).1.fault = some f) ∧
    (∀ n, hostOp s (.runSteps n) = (s, .ran (some f))) ∧
    (∀ p e, hostOp s (.run p e) = (s, .ran (some f)))

/-- Each address space is written only by its own instructions (20_memory.md R51): memory by Fx33 and Fx55, the stack
by 2nnn and 00EE, the screen by 00E0 and Dxyn, the key latches and the remainder of the run port by none. -/
def Obligations.EachSpaceHasItsOwnWriters : Prop :=
  ∀ (i : Instr) (s t : State), exec i s = .next t →
    ((∀ x, i ≠ .ldB x) → (∀ x, i ≠ .storeRegs x) → samePart s t .memory) ∧
    ((∀ nnn, i ≠ .call nnn) → i ≠ .ret → samePart s t .stack) ∧
    (i ≠ .cls → (∀ x y n, i ≠ .drw x y n) → samePart s t .screen) ∧
    samePart s t .keys ∧ samePart s t .remainder

/-- Each special register is written only by its own instructions: `I` by Annn, Fx1E and Fx29 (10_state.md R22), `DT` by
Fx15 and `ST` by Fx18 (60_exceptions.md R213), a byte is drawn from the random source by Cxkk alone, one per
execution (R219; the counter is the model's own, log entry 2). -/
def Obligations.EachSpecialRegisterHasItsOwnWriters : Prop :=
  ∀ (i : Instr) (s t : State), exec i s = .next t →
    ((∀ nnn, i ≠ .ldI nnn) → (∀ x, i ≠ .addI x) → (∀ x, i ≠ .ldF x) → samePart s t .index) ∧
    ((∀ x, i ≠ .ldDtVx x) → samePart s t .delay) ∧
    ((∀ x, i ≠ .ldStVx x) → samePart s t .sound) ∧
    ((∀ x kk, i ≠ .rnd x kk) → samePart s t .draws) ∧
    (∀ x kk, i = .rnd x kk → t.draws = s.draws + 1)

/-- `dirty` is set by every 00E0 and Dxyn that completes and by nothing else, no host operation included; a draw that
faults does not set it (60_exceptions.md R221). -/
def Obligations.DirtyIsSetByCompletedClearsAndDrawsOnly : Prop :=
  ∀ (i : Instr) (s t : State), s.fault = none → exec i s = .next t →
    ((i = .cls ∨ ∃ x y n, i = .drw x y n) → t.fault = none → t.dirty = true) ∧
    (t.fault ≠ none → t.dirty = s.dirty) ∧
    (i ≠ .cls → (∀ x y n, i ≠ .drw x y n) → t.dirty = s.dirty) ∧
    (∀ op, (∀ n, op ≠ .runSteps n) → (∀ p e, op ≠ .run p e) → (hostOp s op).1.dirty = true → s.dirty = true)

/-- VF (10_state.md R21, spec decision D8, log entry 12): the six flag-writing instructions leave 0 or 1 in it when they
complete; every other instruction leaves it alone unless VF is its own destination register. -/
def Obligations.TheFlagHasExactlySixSideWriters : Prop :=
  ∀ (i : Instr) (s t : State), s.fault = none → exec i s = .next t → t.fault = none →
    match i with
    | .addReg _ _ | .subReg _ _ | .subnReg _ _ | .shr _ _ | .shl _ _ | .drw _ _ _ => t.getV 15 = 0 ∨ t.getV 15 = 1
    | .ldImm x _ | .addImm x _ | .ldReg x _ | .orReg x _ | .andReg x _ | .xorReg x _ | .rnd x _ | .ldVxDt x
    | .ldVxK x | .loadRegs x => x ≠ 15 → t.getV 15 = s.getV 15
    | _ => t.getV 15 = s.getV 15

/-- No instruction reads `ST`, `dirty` or the remainder of the run port (10_state.md R27, R29, R33): two machines that
differ only in these take steps that differ only in these. -/
def Obligations.SoundDirtyAndRemainderAreNeverRead : Prop :=
  ∀ (s t : State) (b : Byte) (d : Bool) (q : Rat), step s = .next t →
    ∃ t', step (((s.setST b).setDirty d).setRemainder q) = .next t' ∧
      onlyChanges [.sound, .dirty, .remainder] t t'

/-! ### Memory (20_memory.md) -/

/-- `MemRead` of one byte and of two: an address outside 0x000 to 0xFFF raises, the first such address is the
payload, and two bytes are joined with the lower address in bits 15 to 8 (R57, R58). -/
def Obligations.MemoryReadsCheckTheirAddresses : Prop :=
  ∀ (s : State) (a : Nat),
    (a > 0xFFF → s.memRead1 a = .error (.address a) ∧ s.memRead2 a = .error (.address a)) ∧
    (a ≤ 0xFFF → s.memRead1 a = .ok (s.byteAt a)) ∧
    (a = 0xFFF → s.memRead2 a = .error (.address 0x1000)) ∧
    (a < 0xFFF → ∃ op, s.memRead2 a = .ok op ∧
      op.toNat = 256 * (s.byteAt a).toNat + (s.byteAt (a + 1)).toNat)

/-- `MemWrite`: an address outside memory raises; inside, that one cell changes and nothing else (R59). -/
def Obligations.AMemoryWriteChangesOneCell : Prop :=
  ∀ (s : State) (a : Nat) (v : Byte),
    (a > 0xFFF → s.memWrite1 a v = .error (.address a)) ∧
    (a ≤ 0xFFF → ∃ t, s.memWrite1 a v = .ok t ∧ t.byteAt a = v ∧ memKeptOutside a 1 s t ∧
      onlyChanges [.memory] s t)

/-- A stored byte is what the very next fetch over it reads, as high or as low byte of the opcode (R66). -/
def Obligations.AStoreIsSeenByTheNextFetch : Prop :=
  ∀ (s t : State) (a : Nat) (v : Byte), s.memWrite1 a v = .ok t →
    (a < 0xFFF → t.memRead2 a = .ok (joinBytes v (s.byteAt (a + 1)))) ∧
    (1 ≤ a → t.memRead2 (a - 1) = .ok (joinBytes (s.byteAt (a - 1)) v))

/-! ### Control transfer (40_control_flow.md) -/

/-- `JP nnn` (R102): any 12-bit address goes to `pc` exactly, nothing else changes and nothing faults; the following
fetch reads the opcode at `nnn`, and with `nnn` 0xFFF it is that fetch which faults. -/
def Obligations.JumpSetsPcExactly : Prop :=
  ∀ (nnn : Addr12) (s : State),
    decodeWord (encodeNNN 0x1 nnn) = .ok (.jp nnn) ∧
    ∃ t, exec (.jp nnn) s = .next t ∧ t.pc.toNat = nnn.toNat ∧ onlyChanges [.pc] s t ∧
      (nnn.toNat < 0xFFF → t.memRead2 t.pc.toNat = .ok (joinBytes (s.byteAt nnn.toNat) (s.byteAt (nnn.toNat + 1)))) ∧
      (nnn.toNat = 0xFFF → s.fault = none → step t = .next (t.takeFault (.address 0x1000)))

/-- `CALL nnn` with room on the stack (R103): the address after the CALL is saved in the next cell, the depth grows by
one, `pc` is the target; the other cells and all else are unchanged. The depth count is the spec's choice, D6. -/
def Obligations.CallSavesTheReturnAddress : Prop :=
  ∀ (nnn : Addr12) (s : State), s.sp.val < 16 →
    ∃ t, exec (.call nnn) s = .next t ∧ t.pc.toNat = nnn.toNat ∧ t.sp.val = s.sp.val + 1 ∧
      (∀ j : Fin 16, t.stack[j] = if j.val = s.sp.val then s.pc + 2 else s.stack[j]) ∧
      onlyChanges [.pc, .stack] s t

/-- `RET` with an address saved (R101): the newest saved address goes to `pc`, the depth shrinks by one, no cell
changes. The depth count is the spec's choice, D6. -/
def Obligations.ReturnTakesTheNewestAddress : Prop :=
  ∀ s : State, s.sp.val ≠ 0 →
    ∃ t, exec .ret s = .next t ∧ t.sp.val + 1 = s.sp.val ∧
      (∀ j : Fin 16, j.val + 1 = s.sp.val → t.pc = s.stack[j]) ∧
      (∀ j : Fin 16, t.stack[j] = s.stack[j]) ∧ onlyChanges [.pc, .stack] s t

/-- The stack faults (60_exceptions.md R203): CALL at depth 16 and RET at depth 0, and only there. -/
def Obligations.StackFaultsAtTheTwoEnds : Prop :=
  ∀ (nnn : Addr12) (s : State), s.fault = none →
    (∃ t, exec (.call nnn) s = .next t ∧ (t.fault = some (.stack .overflow) ↔ s.sp.val = 16)) ∧
    (∃ t, exec .ret s = .next t ∧ (t.fault = some (.stack .underflow) ↔ s.sp.val = 0))

/-- Call and return round trip (R101's property): a return executed with the stack as the call left it, whatever the
subroutine did to everything else, comes back to the address after the call, at the depth before it. -/
def Obligations.CallThenReturnComesBack : Prop :=
  ∀ (nnn : Addr12) (s t u : State), s.sp.val < 16 → exec (.call nnn) s = .next t → samePart t u .stack →
    ∃ w, exec .ret u = .next w ∧ w.pc = s.pc + 2 ∧ w.sp = s.sp

/-- The four register skips (R104 to R107) under the skip law R109: `pc` goes four bytes on when the condition holds,
two when not, and nothing else changes. The distance is the spec's general knowledge, G6 (log entry 13). -/
def Obligations.RegisterSkips : Prop :=
  ∀ (x y : Reg) (kk : Byte) (s : State),
    (∃ t, exec (.seImm x kk) s = .next t ∧ t.pc = (if s.getV x = kk then s.pc + 4 else s.pc + 2) ∧
      onlyChanges [.pc] s t) ∧
    (∃ t, exec (.sneImm x kk) s = .next t ∧ t.pc = (if s.getV x = kk then s.pc + 2 else s.pc + 4) ∧
      onlyChanges [.pc] s t) ∧
    (∃ t, exec (.seReg x y) s = .next t ∧ t.pc = (if s.getV x = s.getV y then s.pc + 4 else s.pc + 2) ∧
      onlyChanges [.pc] s t) ∧
    (∃ t, exec (.sneReg x y) s = .next t ∧ t.pc = (if s.getV x = s.getV y then s.pc + 2 else s.pc + 4) ∧
      onlyChanges [.pc] s t)

/-- `JP V0, nnn` (R108): the full sum of the address and V0 goes to `pc`, not reduced and not checked (D17,
log entry 11); nothing else changes. -/
def Obligations.JumpWithOffsetAddsV0 : Prop :=
  ∀ (nnn : Addr12) (s : State),
    ∃ t, exec (.jpV0 nnn) s = .next t ∧ t.pc.toNat = nnn.toNat + (s.getV 0).toNat ∧ onlyChanges [.pc] s t

/-! ### Registers (41_alu.md) -/

/-- `LD Vx, kk` (R120): the immediate goes to `V[x]`, VF included when `x` is 15; no other register and nothing else but
`pc` changes. -/
def Obligations.LoadImmediate : Prop :=
  ∀ (x : Reg) (kk : Byte) (s : State),
    decodeWord (encodeXKK 0x6 x kk) = .ok (.ldImm x kk) ∧
    ∃ t, exec (.ldImm x kk) s = .next t ∧ t.getV x = kk ∧ t.pc = s.pc + 2 ∧ regsKeptBut [x] s t ∧
      onlyChanges [.regs, .pc] s t

/-- `ADD Vx, kk` (R121): the sum mod 256; VF is written only as `V[x]` (D8, log entry 12). -/
def Obligations.AddImmediateWraps : Prop :=
  ∀ (x : Reg) (kk : Byte) (s : State),
    ∃ t, exec (.addImm x kk) s = .next t ∧ (t.getV x).toNat = ((s.getV x).toNat + kk.toNat) % 256 ∧
      t.pc = s.pc + 2 ∧ regsKeptBut [x] s t ∧ onlyChanges [.regs, .pc] s t

/-- Move, OR, AND and XOR (R122 to R125), bit by bit; VF is written only as `V[x]` (D8, log entry 12). -/
def Obligations.MoveAndLogic : Prop :=
  ∀ (x y : Reg) (s : State),
    (∃ t, exec (.ldReg x y) s = .next t ∧ t.getV x = s.getV y ∧
      t.pc = s.pc + 2 ∧ regsKeptBut [x] s t ∧ onlyChanges [.regs, .pc] s t) ∧
    (∃ t, exec (.orReg x y) s = .next t ∧
      (∀ k, (t.getV x).getLsbD k = ((s.getV x).getLsbD k || (s.getV y).getLsbD k)) ∧
      t.pc = s.pc + 2 ∧ regsKeptBut [x] s t ∧ onlyChanges [.regs, .pc] s t) ∧
    (∃ t, exec (.andReg x y) s = .next t ∧
      (∀ k, (t.getV x).getLsbD k = ((s.getV x).getLsbD k && (s.getV y).getLsbD k)) ∧
      t.pc = s.pc + 2 ∧ regsKeptBut [x] s t ∧ onlyChanges [.regs, .pc] s t) ∧
    (∃ t, exec (.xorReg x y) s = .next t ∧
      (∀ k, (t.getV x).getLsbD k = ((s.getV x).getLsbD k != (s.getV y).getLsbD k)) ∧
      t.pc = s.pc + 2 ∧ regsKeptBut [x] s t ∧ onlyChanges [.regs, .pc] s t)

/-- `ADD Vx, Vy` (R126): VF is the carry of the exact sum; `V[x]` is the sum mod 256 unless `x` is 15, where the flag,
written last, remains (R132, D7, log entry 9). -/
def Obligations.AddWithCarry : Prop :=
  ∀ (x y : Reg) (s : State),
    ∃ t, exec (.addReg x y) s = .next t ∧
      t.getV 15 = (if (s.getV x).toNat + (s.getV y).toNat > 255 then 1 else 0) ∧
      (x ≠ 15 → (t.getV x).toNat = ((s.getV x).toNat + (s.getV y).toNat) % 256) ∧
      t.pc = s.pc + 2 ∧ regsKeptBut [x, 15] s t ∧ onlyChanges [.regs, .pc] s t

/-- `SUB` and `SUBN` (R127, R129): VF is 1 exactly when the minuend is at least the subtrahend; `V[x]` is the difference
mod 256 unless `x` is 15, where the flag remains (R132, D7, log entry 9). That SUBN's minuend is `V[y]` is the
spec's general knowledge, G5 (log entry 13). -/
def Obligations.SubtractWithNoBorrowFlag : Prop :=
  ∀ (x y : Reg) (s : State),
    (∃ t, exec (.subReg x y) s = .next t ∧
      t.getV 15 = (if (s.getV x).toNat ≥ (s.getV y).toNat then 1 else 0) ∧
      (x ≠ 15 → (t.getV x).toNat = ((s.getV x).toNat + 256 - (s.getV y).toNat) % 256) ∧
      t.pc = s.pc + 2 ∧ regsKeptBut [x, 15] s t ∧ onlyChanges [.regs, .pc] s t) ∧
    (∃ t, exec (.subnReg x y) s = .next t ∧
      t.getV 15 = (if (s.getV y).toNat ≥ (s.getV x).toNat then 1 else 0) ∧
      (x ≠ 15 → (t.getV x).toNat = ((s.getV y).toNat + 256 - (s.getV x).toNat) % 256) ∧
      t.pc = s.pc + 2 ∧ regsKeptBut [x, 15] s t ∧ onlyChanges [.regs, .pc] s t)

/-- `SHR` and `SHL` (R128, R130): by one, of register `x` whatever `y` is (the quirk flag is false, log entry 7); VF is the
bit shifted out and remains when `x` is 15 (R132, D7, log entry 9). -/
def Obligations.ShiftsByOne : Prop :=
  ∀ (x y : Reg) (s : State),
    (∃ t, exec (.shr x y) s = .next t ∧ (t.getV 15).toNat = (s.getV x).toNat % 2 ∧
      (x ≠ 15 → (t.getV x).toNat = (s.getV x).toNat / 2) ∧
      t.pc = s.pc + 2 ∧ regsKeptBut [x, 15] s t ∧ onlyChanges [.regs, .pc] s t) ∧
    (∃ t, exec (.shl x y) s = .next t ∧ (t.getV 15).toNat = (s.getV x).toNat / 128 ∧
      (x ≠ 15 → (t.getV x).toNat = (s.getV x).toNat * 2 % 256) ∧
      t.pc = s.pc + 2 ∧ regsKeptBut [x, 15] s t ∧ onlyChanges [.regs, .pc] s t)

/-- `RND Vx, kk` (R131; 60_exceptions.md R219): `V[x]` is the drawn byte AND the mask, whatever byte is drawn (the draw is
a free value, log entry 2); no bit outside the mask can be set, and every value inside the mask is the result of
some byte. One draw is counted and VF is written only as `V[x]`. -/
def Obligations.RandomByteIsMasked : Prop :=
  ∀ (x : Reg) (kk : Byte) (s : State),
    (∃ t, exec (.rnd x kk) s = .next t ∧ t.getV x = Config.randomByte s.draws &&& kk ∧
      t.getV x &&& ~~~kk = 0 ∧ t.draws = s.draws + 1 ∧
      t.pc = s.pc + 2 ∧ regsKeptBut [x] s t ∧ onlyChanges [.regs, .pc, .draws] s t) ∧
    (∀ v : Byte, v &&& ~~~kk = 0 → ∃ r, (s.maskRandom x kk r).getV x = v)

/-! ### Display (42_display.md) -/

/-- `CLS` (R140): every pixel 0 and `dirty` set, blank before or not; VF and everything else but `pc` unchanged. -/
def Obligations.ClearBlanksTheScreen : Prop :=
  ∀ s : State,
    decodeWord 0x00E0 = .ok .cls ∧
    ∃ t, exec .cls s = .next t ∧ (∀ px py, t.fb.pixel px py = false) ∧ t.dirty = true ∧ t.pc = s.pc + 2 ∧
      onlyChanges [.screen, .dirty, .pc] s t

/-- `DRW Vx, Vy, n` with its sprite in memory (R141 to R143): every pixel takes the XOR with the sprite bit that lands on
it (coordinates wrap), VF is 1 exactly when some pixel goes from 1 to 0 in this draw, `dirty` is set, and nothing
else changes; `V[x]` and `V[y]` are read before VF is written. Bit 7 leftmost and byte 0 topmost are D15
(log entry 13); zero rows read and draw nothing, D14 (log entry 10). -/
def Obligations.DrawXorsTheSprite : Prop :=
  ∀ (x y : Reg) (n : Nibble) (s : State), (n.toNat = 0 ∨ s.I.toNat + n.toNat - 1 ≤ 0xFFF) →
    ∃ t, exec (.drw x y n) s = .next t ∧
      (∀ px py, t.fb.pixel px py
        = (s.fb.pixel px py != spriteBit (s.getV x).toNat (s.getV y).toNat (s.spriteBytes n) px py)) ∧
      (t.getV 15 = 0 ∨ t.getV 15 = 1) ∧
      (t.getV 15 = 1 ↔ ∃ px py, s.fb.pixel px py = true ∧ t.fb.pixel px py = false) ∧
      t.dirty = true ∧ t.pc = s.pc + 2 ∧ regsKeptBut [15] s t ∧
      onlyChanges [.screen, .regs, .dirty, .pc] s t

/-- Drawing the same sprite twice at the same place restores the screen, and the second draw's flag is 1 exactly when
some 1 bit of the sprite landed on a pixel that was 0 before the first (R141, corner case 5). -/
def Obligations.DrawingTwiceRestoresTheScreen : Prop :=
  ∀ (x y : Reg) (n : Nibble) (s t u : State), x ≠ 15 → y ≠ 15 → s.fault = none →
    exec (.drw x y n) s = .next t → t.fault = none → exec (.drw x y n) t = .next u →
      samePart s u .screen ∧
      (u.getV 15 = 1 ↔ ∃ px py, s.fb.pixel px py = false ∧
        spriteBit (s.getV x).toNat (s.getV y).toNat (s.spriteBytes n) px py = true)

/-! ### Keypad and timers (43_keypad_timers.md) -/

/-- `SKP` and `SKNP` on a key the keypad has (R150, R151): a level test; `pc` goes four bytes on or two, nothing else
changes. -/
def Obligations.KeySkips : Prop :=
  ∀ (x : Reg) (k : Fin 16) (s : State), (s.getV x).toNat = k.val →
    (∃ t, exec (.skp x) s = .next t ∧ t.pc = (if s.isPressed k = true then s.pc + 4 else s.pc + 2) ∧
      onlyChanges [.pc] s t) ∧
    (∃ t, exec (.sknp x) s = .next t ∧ t.pc = (if s.isPressed k = true then s.pc + 2 else s.pc + 4) ∧
      onlyChanges [.pc] s t)

/-- `LD Vx, K` with a key down (R153): the smallest pressed key goes to `V[x]` (D13, log entry 10). -/
def Obligations.WaitForKeyTakesTheSmallest : Prop :=
  ∀ (x : Reg) (k : Fin 16) (s : State), s.isPressed k = true → (∀ j, j < k → s.isPressed j = false) →
    ∃ t, exec (.ldVxK x) s = .next t ∧ (t.getV x).toNat = k.val ∧ t.pc = s.pc + 2 ∧ regsKeptBut [x] s t ∧
      onlyChanges [.regs, .pc] s t

/-- The stuck wait (70_reset_and_hazards.md R256): while no key is down, any number of steps at an Fx0A leave the whole
state exactly as it was, and whatever else a host that presses no key does, the machine waits on: only the timers, the
dirty flag and the remainder can have moved, so it is neither a fault nor a stop. -/
def Obligations.TheWaitRepeatsForEver : Prop :=
  ∀ (x : Reg) (s : State), s.fault = none → s.fetch = .ok (.ldVxK x) → (∀ k, s.isPressed k = false) →
    (∀ n, runSteps n s = .next s) ∧
    ∀ ops : List HostOp, (∀ op ∈ ops, ∀ k, op ≠ .pressKey k) →
      onlyChanges [.delay, .sound, .dirty, .remainder] s (schedule ops s).1

/-- `LD DT, Vx` (R154): any value goes to the delay timer, higher or lower; nothing else but `pc` changes; and so many
ticks later the timer is that value less their number, never below 0. -/
def Obligations.SetDelayTimer : Prop :=
  ∀ (x : Reg) (s : State),
    decodeWord (encodeXKK 0xF x 0x15) = .ok (.ldDtVx x) ∧
    ∃ t, exec (.ldDtVx x) s = .next t ∧ t.DT = s.getV x ∧ t.pc = s.pc + 2 ∧ onlyChanges [.delay, .pc] s t ∧
      ∀ n, (State.advanceTimers^[n] t).DT.toNat = (s.getV x).toNat - n

/-- `LD Vx, DT` and `LD ST, Vx` (R152, R155). -/
def Obligations.ReadDelayTimerAndSetSoundTimer : Prop :=
  ∀ (x : Reg) (s : State),
    (∃ t, exec (.ldVxDt x) s = .next t ∧ t.getV x = s.DT ∧ t.pc = s.pc + 2 ∧ regsKeptBut [x] s t ∧
      onlyChanges [.regs, .pc] s t) ∧
    (∃ t, exec (.ldStVx x) s = .next t ∧ t.ST = s.getV x ∧ t.pc = s.pc + 2 ∧ onlyChanges [.sound, .pc] s t)

/-- The tick (60_exceptions.md R214): applied any number of times, each timer is its value less that number, never below
0, and nothing else has changed. -/
def Obligations.TicksCountBothTimersDown : Prop :=
  ∀ (n : Nat) (s : State),
    (State.advanceTimers^[n] s).DT.toNat = s.DT.toNat - n ∧
    (State.advanceTimers^[n] s).ST.toNat = s.ST.toNat - n ∧
    onlyChanges [.delay, .sound] s (State.advanceTimers^[n] s)

/-! ### The index register and memory transfers (44_index_memory.md) -/

/-- `LD I`, `ADD I` and `LD F` (R160 to R162): the address; the sum mod 65536 with VF untouched (D8, D9, log entry 12); the
glyph address of the low nibble, from the font base (D2, log entry 5). -/
def Obligations.IndexRegisterLoads : Prop :=
  ∀ (nnn : Addr12) (x : Reg) (s : State),
    (∃ t, exec (.ldI nnn) s = .next t ∧ t.I.toNat = nnn.toNat ∧ t.pc = s.pc + 2 ∧
      onlyChanges [.index, .pc] s t) ∧
    (∃ t, exec (.addI x) s = .next t ∧ t.I.toNat = (s.I.toNat + (s.getV x).toNat) % 65536 ∧ t.pc = s.pc + 2 ∧
      onlyChanges [.index, .pc] s t) ∧
    (∃ t, exec (.ldF x) s = .next t ∧ t.I.toNat = 0x050 + 5 * ((s.getV x).toNat % 16) ∧ t.pc = s.pc + 2 ∧
      onlyChanges [.index, .pc] s t)

/-- `LD B, Vx` in range (R163): hundreds, tens and ones of `V[x]` at `I`, `I+1`, `I+2` (order: D11, log entry 13); every
other byte, and all else but `pc`, unchanged. -/
def Obligations.BcdStoresThreeDigits : Prop :=
  ∀ (x : Reg) (s : State), s.I.toNat + 2 ≤ 0xFFF →
    ∃ t, exec (.ldB x) s = .next t ∧
      (t.byteAt (s.dataAddress 0)).toNat = (s.getV x).toNat / 100 ∧
      (t.byteAt (s.dataAddress 1)).toNat = (s.getV x).toNat / 10 % 10 ∧
      (t.byteAt (s.dataAddress 2)).toNat = (s.getV x).toNat % 10 ∧
      memKeptOutside (s.dataAddress 0) 3 s t ∧ t.pc = s.pc + 2 ∧ onlyChanges [.memory, .pc] s t

/-- `LD [I], Vx` in range (R164): `V[0]` to `V[x]` at `I` to `I+x`, every other byte and `I` itself unchanged (D10,
log entry 12). -/
def Obligations.StoreRegistersToMemory : Prop :=
  ∀ (x : Reg) (s : State), s.I.toNat + x.toNat ≤ 0xFFF →
    ∃ t, exec (.storeRegs x) s = .next t ∧
      (∀ j : Reg, j.toNat ≤ x.toNat → t.byteAt (s.dataAddress j.toNat) = s.getV j) ∧
      memKeptOutside (s.dataAddress 0) (x.toNat + 1) s t ∧ t.pc = s.pc + 2 ∧ onlyChanges [.memory, .pc] s t

/-- `LD Vx, [I]` in range (R165): `V[0]` to `V[x]` from `I` to `I+x`, VF as data when `x` is 15; the higher registers,
memory and `I` unchanged (D10, log entry 12). -/
def Obligations.LoadRegistersFromMemory : Prop :=
  ∀ (x : Reg) (s : State), s.I.toNat + x.toNat ≤ 0xFFF →
    ∃ t, exec (.loadRegs x) s = .next t ∧
      (∀ j : Reg, t.getV j = if j.toNat ≤ x.toNat then s.byteAt (s.dataAddress j.toNat) else s.getV j) ∧
      t.pc = s.pc + 2 ∧ onlyChanges [.regs, .pc] s t

/-- Store then load at the same index restores the registers (the round-trip property of R164 and R165), whatever happened
to the registers between. `I` unchanged by both is D10 (log entry 12). -/
def Obligations.StoreThenLoadRestoresTheRegisters : Prop :=
  ∀ (x : Reg) (s t u : State), s.I.toNat + x.toNat ≤ 0xFFF → exec (.storeRegs x) s = .next t →
    samePart t u .memory → samePart t u .index →
    ∃ w, exec (.loadRegs x) u = .next w ∧ ∀ j : Reg, j.toNat ≤ x.toNat → w.getV j = s.getV j

/-! ### Reset, load and run (70_reset_and_hazards.md) -/

/-- Which images `create` accepts (R241): none of no bytes, none above 3584 bytes, every other one, of odd length too and
whatever its content, whole, with 0 in the byte after it; one that begins with an illegal opcode loads as well and
faults when run. -/
def Obligations.CreateAcceptsEveryImageThatFits : Prop :=
  ∀ rom : List Byte,
    (rom.length = 0 → create rom = .error .empty) ∧
    (rom.length > 3584 → create rom = .error .tooLarge) ∧
    (1 ≤ rom.length → rom.length ≤ 3584 →
      ∃ s, create rom = .ok s ∧ (∀ k, k < rom.length → s.byteAt (0x200 + k) = rom.getD k 0) ∧
        (rom.length < 3584 → s.byteAt (0x200 + rom.length) = 0) ∧
        ∀ op, decodeBytes rom = .error (.illegal op) → step s = .next (s.takeFault (.decode op)))

/-- The machine `create` makes (R240; the table of 10_state.md R34, whose rows other than `pc` and the program region are
the spec's decisions D2 to D5 and D29, log entries 4 and 5): the image from 0x200, the font, zero elsewhere, every
register, stack cell, timer, pixel and key zero or false, no fault. An image of zero bytes makes `State.reset`
(log entry 3). -/
def Obligations.CreateMakesTheResetState : Prop :=
  ∀ (rom : List Byte) (s : State), create rom = .ok s →
    s.pc.toNat = 0x200 ∧
    (∀ k, k < rom.length → s.byteAt (0x200 + k) = rom.getD k 0) ∧
    (∀ a, a < 0x200 ∨ 0x200 + rom.length ≤ a →
      s.byteAt a = if 0x050 ≤ a ∧ a < 0x0A0 then Config.font.getD (a - 0x050) 0 else 0) ∧
    (∀ r, s.getV r = 0) ∧ s.I = 0 ∧ s.sp.val = 0 ∧ (∀ j : Fin 16, s.stack[j] = 0) ∧ s.DT = 0 ∧ s.ST = 0 ∧
    (∀ px py, s.fb.pixel px py = false) ∧ s.dirty = false ∧ (∀ k, s.isPressed k = false) ∧ s.fault = none ∧
    s.remainder = 0 ∧ ((∀ b ∈ rom, b = 0) → s = State.reset)

/-- The remainder of the run port (R247): `run` makes the steps, and carries on the remainder, that `budget` counts; with
the carry on it is below one instruction always and, from the reset value
0, the steps of any sequence of calls are together the floor of the rate times the whole time; with the carry off
each call rounds down on its own; no instruction can observe it. Rational times and rates are the model's choice
(log entry 15). -/
def Obligations.TheRemainderLosesNoInstruction : Prop :=
  State.reset.remainder = 0 ∧
  (∀ (p : Config.Pacing) (e : Rat) (s : State), s.fault = none →
    hostOp s (.run p e) = hostOp (s.setRemainder (budget p s.remainder e).2) (.runSteps (budget p s.remainder e).1)) ∧
  (∀ (p : Config.Pacing) (r : Rat) (es : List Rat), p.carry = true → 0 ≤ p.ips → (∀ e ∈ es, 0 ≤ e) → 0 ≤ r → r < 1 →
    0 ≤ (budgetAll p r es).2 ∧ (budgetAll p r es).2 < 1 ∧
    ((budgetAll p 0 es).1 : Int) = (p.ips * es.sum).floor) ∧
  (∀ (p : Config.Pacing) (r : Rat) (es : List Rat), p.carry = false → 0 ≤ p.ips → (∀ e ∈ es, 0 ≤ e) →
    ((budgetAll p r es).1 : Int) = (es.map fun e => (e * p.ips).floor).sum) ∧
  (∀ (s t : State) (q : Rat), step s = .next t → step (s.setRemainder q) = .next (t.setRemainder q))

/-- A fault ends the run at once (R248): once a run of `k` steps has reached a fault, a run of any more steps is the same,
its fault is what the caller gets, and every later run reports it without executing. -/
def Obligations.AFaultEndsTheRun : Prop :=
  ∀ (k n : Nat) (s t : State) (f : Fault), runSteps k s = .next t → t.fault = some f → k ≤ n →
    runSteps n s = .next t ∧ hostOp s (.runSteps n) = (t, .ran (some f)) ∧
    (∀ m, hostOp t (.runSteps m) = (t, .ran (some f))) ∧ (∀ p e, hostOp t (.run p e) = (t, .ran (some f)))

/-! ### Host ports (60_exceptions.md) -/

/-- Key events on the sixteen keys (R217): the latch takes the latest event whatever it held, no other latch and nothing
else changes. -/
def Obligations.KeyEventsSetOneLatch : Prop :=
  ∀ (k : Nat) (s : State), k < 16 →
    (∃ t, s.pressKey k = .ok t ∧ (∀ j : Fin 16, t.isPressed j = if j.val = k then true else s.isPressed j) ∧
      onlyChanges [.keys] s t) ∧
    (∃ t, s.releaseKey k = .ok t ∧ (∀ j : Fin 16, t.isPressed j = if j.val = k then false else s.isPressed j) ∧
      onlyChanges [.keys] s t)

/-- A key event with an index above 15 is answered by an error and changes nothing, the fault latch included, so the
machine can go on stepping (R207; D21, log entry 14). That the check accepts any natural number, and names one above
255 too, is the model's choice (log entry 20). -/
def Obligations.InvalidKeyEventsChangeNothing : Prop :=
  ∀ (k : Nat) (s : State), k > 15 →
    hostOp s (.pressKey k) = (s, .invalidInput (.invalidKey k)) ∧
    hostOp s (.releaseKey k) = (s, .invalidInput (.invalidKey k))

/-- `display_changed` (R220): the old flag is returned and cleared, nothing else changes; so a second call with no draw
between returns false. -/
def Obligations.DisplayChangedReadsAndClears : Prop :=
  ∀ s : State, ∃ t,
    hostOp s .displayChanged = (t, .flag s.dirty) ∧ t.dirty = false ∧ onlyChanges [.dirty] s t ∧
    hostOp t .displayChanged = (t, .flag false)

/-- `framebuffer_view` (R222): 2048 bytes of 0 or 1, byte `64 * y + x` for pixel `(x, y)` (order: D15, log entry 13), and
reading changes nothing. -/
def Obligations.TheViewIsRowMajor : Prop :=
  ∀ s : State, ∃ l,
    hostOp s .framebufferView = (s, .bytes l) ∧ l.length = 2048 ∧
    ∀ (px : Fin 64) (py : Fin 32), l.getD (64 * py.val + px.val) 0 = if s.fb.pixel px py = true then 1 else 0

/-- What a host can reach without running the machine (R224): key latches, timers by ticking, and the dirty flag; never
memory, registers, `I`, `pc`, the stack, the screen or the fault latch. The timer queries return the timers. -/
def Obligations.TheHostReachesOnlyItsPorts : Prop :=
  ∀ (s : State) (op : HostOp), (∀ n, op ≠ .runSteps n) → (∀ p e, op ≠ .run p e) →
    onlyChanges [.keys, .delay, .sound, .dirty] s (hostOp s op).1 ∧
    (op ≠ .advanceTimers → samePart s (hostOp s op).1 .delay ∧ samePart s (hostOp s op).1 .sound) ∧
    hostOp s .delayTimerValue = (s, .byte s.DT) ∧ hostOp s .soundTimerValue = (s, .byte s.ST)
end

