-- ==== Sys2Proof/Laws/Memory.lean ====
section
/-! SUPPORT. Memory as data: a read after a write, and the canonical form, which every memory operation keeps. -/

namespace Sys2Proof.Machine

theorem Memory.read_erase (m : Memory) (a b : Nat) :
    Memory.read (Memory.erase m a) b = if b = a then resetByte a else Memory.read m b := by
  induction m with
  | nil =>
    by_cases h : b = a
    · subst h; simp [Memory.erase, Memory.read]
    · simp [Memory.erase, Memory.read, h]
  | cons c m ih =>
    obtain ⟨c, v⟩ := c
    simp only [Memory.erase] at ih ⊢
    by_cases hc : c = a
    · subst hc
      by_cases hb : b = c
      · subst hb; simpa using ih
      · simpa [Memory.read, hb, Ne.symm hb] using ih
    · by_cases hb : b = a
      · subst hb; simpa [Memory.read, hc] using ih
      · simp only [List.filter, bne_iff_ne.2 hc, Memory.read, ih, if_neg hb]

theorem Memory.read_insert (m : Memory) (a b : Nat) (v : Byte) (h : ∀ c ∈ m, c.1 ≠ a) :
    Memory.read (Memory.insert m a v) b = if b = a then v else Memory.read m b := by
  induction m with
  | nil => simp [Memory.insert, Memory.read, eq_comm]
  | cons c m ih =>
    obtain ⟨c, w⟩ := c
    have hc : c ≠ a := h (c, w) (by simp)
    have ih := ih fun d hd => h d (by simp [hd])
    by_cases hlt : a < c
    · simp [Memory.insert, Memory.read, hlt, eq_comm]
    · by_cases hb : b = a
      · subst hb; simpa [Memory.insert, Memory.read, hlt, hc] using ih
      · simp [Memory.insert, Memory.read, hlt, hb, ih]

theorem Memory.erase_lacks (m : Memory) (a : Nat) : ∀ c ∈ Memory.erase m a, c.1 ≠ a := by
  intro c hc
  simpa [Memory.erase] using (List.mem_filter.1 hc).2

/-- A read after a write: the byte written at its own address, every other cell as it was. -/
@[simp] theorem Memory.read_write (m : Memory) (a b : Nat) (v : Byte) :
    Memory.read (Memory.write m a v) b = if b = a then v else Memory.read m b := by
  unfold Memory.write
  split
  · next h => rw [Memory.read_erase, h]
  · rw [Memory.read_insert _ _ _ _ (Memory.erase_lacks m a), Memory.read_erase]
    by_cases hb : b = a <;> simp [hb]

/-- A read after consecutive writes: the byte of its place inside the range, the old content outside. -/
theorem Memory.read_writeAll (bs : List Byte) (m : Memory) (a b : Nat) :
    Memory.read (Memory.writeAll m a bs) b
      = if a ≤ b ∧ b < a + bs.length then bs.getD (b - a) 0 else Memory.read m b := by
  induction bs generalizing m a with
  | nil => rw [Memory.writeAll, if_neg (by simp)]
  | cons c bs ih =>
    simp only [Memory.writeAll, ih, Memory.read_write, List.length_cons]
    by_cases h1 : b = a
    · subst h1
      rw [if_neg (by omega), if_pos rfl, if_pos (by omega)]
      simp
    · by_cases h2 : a + 1 ≤ b ∧ b < a + 1 + bs.length
      · rw [if_pos h2, if_pos (by omega)]
        obtain ⟨k, rfl⟩ : ∃ k, b = a + 1 + k := ⟨b - (a + 1), by omega⟩
        rw [show a + 1 + k - (a + 1) = k by omega, show a + 1 + k - a = k + 1 by omega]
        simp
      · rw [if_neg h2, if_neg h1, if_neg (by omega)]

theorem Memory.wfFrom_mono {lo lo' : Nat} (h : lo ≤ lo') :
    ∀ {m : Memory}, Memory.wfFrom lo' m = true → Memory.wfFrom lo m = true
  | [], _ => rfl
  | (a, v) :: m, hm => by
    simp only [Memory.wfFrom, Bool.and_eq_true, decide_eq_true_eq] at hm ⊢
    exact ⟨⟨⟨by omega, hm.1.1.2⟩, hm.1.2⟩, hm.2⟩

theorem Memory.wfFrom_erase (a : Nat) :
    ∀ {lo : Nat} {m : Memory}, Memory.wfFrom lo m = true → Memory.wfFrom lo (Memory.erase m a) = true
  | _, [], _ => rfl
  | lo, (c, v) :: m, hm => by
    simp only [Memory.wfFrom, Bool.and_eq_true, decide_eq_true_eq] at hm
    have ih := Memory.wfFrom_erase a hm.2
    simp only [Memory.erase] at ih ⊢
    by_cases hc : c = a
    · simp only [List.filter, hc, bne_self_eq_false]
      exact Memory.wfFrom_mono (by omega) (hc ▸ ih)
    · simp only [List.filter, bne_iff_ne.2 hc, Memory.wfFrom, Bool.and_eq_true, decide_eq_true_eq]
      exact ⟨hm.1, ih⟩

theorem Memory.wfFrom_insert {a : Nat} {v : Byte} (ha : a ≤ Config.memTop) (hv : v ≠ resetByte a) :
    ∀ {lo : Nat} {m : Memory}, lo ≤ a → (∀ c ∈ m, c.1 ≠ a) → Memory.wfFrom lo m = true →
      Memory.wfFrom lo (Memory.insert m a v) = true
  | lo, [], hlo, _, _ => by simp [Memory.insert, Memory.wfFrom, hlo, ha, hv]
  | lo, (c, w) :: m, hlo, hne, hm => by
    simp only [Memory.wfFrom, Bool.and_eq_true, decide_eq_true_eq] at hm
    have hc : c ≠ a := hne (c, w) (by simp)
    by_cases hlt : a < c
    · simp only [Memory.insert, hlt, if_true, Memory.wfFrom, Bool.and_eq_true, decide_eq_true_eq]
      exact ⟨⟨⟨hlo, ha⟩, bne_iff_ne.2 hv⟩, ⟨⟨by omega, hm.1.1.2⟩, hm.1.2⟩, hm.2⟩
    · simp only [Memory.insert, hlt, if_false, Memory.wfFrom, Bool.and_eq_true, decide_eq_true_eq]
      exact ⟨hm.1, Memory.wfFrom_insert ha hv (by omega) (fun d hd => hne d (by simp [hd])) hm.2⟩

/-- A write inside the address space keeps the canonical form. -/
theorem Memory.wf_write {m : Memory} {a : Nat} {v : Byte} (ha : a ≤ Config.memTop)
    (hm : Memory.wf m = true) : Memory.wf (Memory.write m a v) = true := by
  unfold Memory.write Memory.wf
  split
  · exact Memory.wfFrom_erase a hm
  · next h => exact Memory.wfFrom_insert ha h (Nat.zero_le a) (Memory.erase_lacks m a) (Memory.wfFrom_erase a hm)

/-- Consecutive writes inside the address space keep the canonical form. -/
theorem Memory.wf_writeAll (bs : List Byte) {m : Memory} {a : Nat} (ha : a + bs.length ≤ Config.memTop + 1)
    (hm : Memory.wf m = true) : Memory.wf (Memory.writeAll m a bs) = true := by
  induction bs generalizing m a with
  | nil => exact hm
  | cons b bs ih =>
    simp only [List.length_cons] at ha
    exact ih (by omega) (Memory.wf_write (by omega) hm)

theorem reset_memory_wf : Memory.wf State.reset.mem = true := rfl

end Sys2Proof.Machine
end

