-- ==== Sys2Proof/Laws/Ops.lean ====
section
/-! SUPPORT. One lemma per shared operation over registers, stack, memory accesses and faults, saying once what
it can do. -/

namespace Sys2Proof.Machine

variable (s : State)

/-! ### Registers -/

@[simp] theorem State.setV_getV (x r : Reg) (b : Byte) :
    (s.setV x b).getV r = if r = x then b else s.getV r := by
  simp only [State.getV, State.setV, Fin.getElem_fin, Vector.getElem_set]
  by_cases h : r = x
  · simp [h]
  · have : ¬ x.toNat = r.toNat := fun e => h (BitVec.eq_of_toNat_eq e.symm)
    simp [h, this]

@[simp] theorem State.setAllV_getV (v : Vector Byte 16) (r : Reg) : (s.setAllV v).getV r = v[r.toFin] := rfl

theorem setManyV_get (bs : List Byte) (v : Vector Byte 16) (j : Nat) (r : Fin 16) :
    (setManyV v j bs)[r] = if j ≤ r.val ∧ r.val < j + bs.length then bs.getD (r.val - j) 0 else v[r] := by
  induction bs generalizing v j with
  | nil => simp only [setManyV, List.length_nil]; rw [if_neg (by omega)]
  | cons b bs ih =>
    simp only [setManyV, ih, Fin.getElem_fin, List.length_cons]
    by_cases h1 : r.val = j
    · rw [if_neg (by omega), if_pos (by omega)]
      simp [h1]
    · by_cases h2 : j + 1 ≤ r.val ∧ r.val < j + 1 + bs.length
      · rw [if_pos h2, if_pos (by omega)]
        obtain ⟨k, hk⟩ : ∃ k, r.val = j + 1 + k := ⟨r.val - (j + 1), by omega⟩
        rw [show r.val - (j + 1) = k by omega, show r.val - j = k + 1 by omega]
        simp
      · rw [if_neg h2, if_neg (by omega)]
        simp [Ne.symm h1]

/-- What a load of the low registers leaves in a register: its byte for `V[0]` to `V[len-1]`, the old value above. -/
theorem State.setManyV_getV (bs : List Byte) (r : Reg) :
    (s.setAllV (setManyV s.V 0 bs)).getV r = if r.toNat < bs.length then bs.getD r.toNat 0 else s.getV r := by
  have := setManyV_get bs s.V 0 r.toFin
  simpa [State.getV] using this

@[simp] theorem State.setKey_isPressed (k j : Fin 16) (b : Bool) :
    (s.setKey k b).isPressed j = if j = k then b else s.isPressed j := by
  simp only [State.isPressed, State.setKey, Fin.getElem_fin, Vector.getElem_set]
  by_cases h : j = k
  · simp [h]
  · have : ¬ k.val = j.val := fun e => h (Fin.ext e.symm)
    simp [h, this]

@[simp] theorem State.setMem_byteAt (m : Memory) (a : Nat) : (s.setMem m).byteAt a = Memory.read m a := rfl

/-- A conditional skip changes `pc` alone. -/
theorem State.skipIf_eq (c : Bool) : s.skipIf c = s.setPc (if c then s.pc + 2 else s.pc) := by
  cases c <;> rfl

/-! ### Ending a step -/

@[simp] theorem settle_ok (t : State) : settle s (.ok t) = .next t := rfl
@[simp] theorem settle_error (f : Fault) : settle s (.error f) = .next (s.takeFault f) := rfl

/-- A step's execute phase always answers a next state. -/
theorem settle_next (r : Except Fault State) : ∃ t, settle s r = .next t := by
  cases r <;> exact ⟨_, rfl⟩

/-- What an execute phase can do: finish as its body says, or take a fault with the old state otherwise whole. -/
theorem execute_cases {s t : State} {body : State → Except Fault State} (h : execute s body = .next t) :
    body s.advance = .ok t ∨ ∃ f, body s.advance = .error f ∧ t = s.takeFault f := by
  unfold execute at h
  cases hb : body s.advance with
  | ok u => rw [hb] at h; cases h; exact .inl rfl
  | error f => rw [hb] at h; cases h; exact .inr ⟨f, rfl, rfl⟩

theorem execute_ok {s t : State} {body : State → Except Fault State} (h : body s.advance = .ok t) :
    execute s body = .next t := by simp [execute, h]

theorem execute_error {s : State} {f : Fault} {body : State → Except Fault State}
    (h : body s.advance = .error f) : execute s body = .next (s.takeFault f) := by simp [execute, h]

/-! ### The call stack -/

theorem State.push_full (w : Word) (h : s.sp.val = 16) : s.push w = .error (.stack .overflow) := by
  simp [State.push, h]

theorem State.push_ok (w : Word) (h : s.sp.val < 16) :
    s.push w = .ok { s with stack := s.stack.set s.sp.val w h, sp := ⟨s.sp.val + 1, by omega⟩ } := by
  simp [State.push, h]

theorem State.pop_empty (h : s.sp.val = 0) : s.pop = .error (.stack .underflow) := by
  simp [State.pop, h]

theorem State.pop_ok (h : s.sp.val ≠ 0) :
    s.pop = .ok (s.stack[s.sp.val - 1]'(by omega), { s with sp := ⟨s.sp.val - 1, by omega⟩ }) := by
  simp [State.pop, h]

/-! ### Memory accesses -/

theorem checkRange_ok {base count : Nat} (h : count = 0 ∨ base + (count - 1) ≤ 0xFFF) :
    checkRange base count = .ok () := by
  exact if_pos h

theorem checkRange_error {base count : Nat} (h0 : count ≠ 0) (h : base + (count - 1) > 0xFFF) :
    checkRange base count = .error (.address (max base 0x1000)) := by
  exact if_neg (by simp only [Config.memTop]; omega)

theorem State.readBytes_ok {base count : Nat} (h : count = 0 ∨ base + (count - 1) ≤ 0xFFF) :
    s.readBytes base count = .ok ((List.range count).map fun k => s.byteAt (base + k)) := by
  simp [State.readBytes, checkRange_ok h, Except.map]

theorem State.readBytes_error {base count : Nat} (h0 : count ≠ 0) (h : base + (count - 1) > 0xFFF) :
    s.readBytes base count = .error (.address (max base 0x1000)) := by
  simp [State.readBytes, checkRange_error h0 h, Except.map]

theorem State.writeBytes_ok {base : Nat} {bs : List Byte} (h : bs.length = 0 ∨ base + (bs.length - 1) ≤ 0xFFF) :
    s.writeBytes base bs = .ok (s.setMem (Memory.writeAll s.mem base bs)) := by
  simp [State.writeBytes, checkRange_ok h, Except.map]

theorem State.writeBytes_error {base : Nat} {bs : List Byte} (h0 : bs.length ≠ 0)
    (h : base + (bs.length - 1) > 0xFFF) : s.writeBytes base bs = .error (.address (max base 0x1000)) := by
  simp [State.writeBytes, checkRange_error h0 h, Except.map]

/-- The low registers as stored: one byte per register up to `x`. -/
@[simp] theorem State.lowRegs_length (x : Reg) : (s.lowRegs x).length = x.toNat + 1 := by simp [State.lowRegs]

theorem State.lowRegs_getD (x : Reg) (k : Nat) (h : k ≤ x.toNat) :
    (s.lowRegs x).getD k 0 = s.getV (BitVec.ofNat 4 k) := by
  have : k < x.toNat + 1 := by omega
  simp [State.lowRegs, List.getD, this]

@[simp] theorem bcdDigits_length (v : Byte) : (bcdDigits v).length = 3 := rfl

/-! ### Fetch -/

/-- A fetch inside memory reads two cells, the lower address in the high byte. -/
theorem State.memRead2_ok {a : Nat} (h : a + 1 ≤ 0xFFF) :
    s.memRead2 a = .ok (joinBytes (s.byteAt a) (s.byteAt (a + 1))) := by
  have h1 : ¬ a > Config.memTop := by simp only [Config.memTop]; omega
  have h2 : ¬ a + 1 > Config.memTop := by simp only [Config.memTop]; omega
  unfold State.memRead2
  rw [if_neg h1, if_neg h2]

/-- A fetch that leaves memory raises at its first address outside. -/
theorem State.memRead2_error {a : Nat} (h : 0xFFF ≤ a) : s.memRead2 a = .error (.address (max a 0x1000)) := by
  unfold State.memRead2
  by_cases h' : a > Config.memTop
  · have : a > 0xFFF := h'
    rw [if_pos h', Nat.max_eq_left (by omega)]
  · have : a ≤ 0xFFF := Nat.le_of_not_lt h'
    have h2 : a + 1 > Config.memTop := by simp only [Config.memTop]; omega
    rw [if_neg h', if_pos h2, Nat.max_eq_right (by omega), show a + 1 = 0x1000 by omega]

/-- What a step can do: nothing on a faulted machine, take the fault of its fetch or decode, or execute. -/
theorem step_cases {s t : State} (h : step s = .next t) :
    (∃ f, s.fault = some f ∧ t = s) ∨
    (s.fault = none ∧ ∃ f, s.fetch = .error f ∧ t = s.takeFault f) ∨
    (s.fault = none ∧ ∃ i, s.fetch = .ok i ∧ exec i s = .next t) := by
  unfold step at h
  cases hf : s.fault with
  | some f => rw [hf] at h; cases h; exact .inl ⟨f, rfl, rfl⟩
  | none =>
    rw [hf] at h
    cases hi : s.fetch with
    | error f => rw [hi] at h; cases h; exact .inr (.inl ⟨rfl, f, rfl, rfl⟩)
    | ok i => rw [hi] at h; exact .inr (.inr ⟨rfl, i, rfl, h⟩)

/-! ### Keys -/

theorem keyIndex_ok (mode : Config.KeyIndexMode) {v : Byte} (h : v.toNat ≤ 15) :
    keyIndex mode v = .ok (lowNibbleKey v) := by
  simp only [keyIndex]; rw [if_neg (by omega)]

theorem keyIndex_error {v : Byte} (h : v.toNat > 15) : keyIndex .fault v = .error (.invalidKey v.toNat) := by
  simp only [keyIndex]; rw [if_pos h]

theorem State.lowestKey_none : s.lowestKey = none ↔ ∀ k, s.isPressed k = false := by
  simp [State.lowestKey]

theorem State.lowestKey_some (k : Fin 16) :
    s.lowestKey = some k ↔ s.isPressed k = true ∧ ∀ j, j < k → s.isPressed j = false := by
  unfold State.lowestKey
  rw [List.find?_eq_some_iff_getElem]
  constructor
  · rintro ⟨hk, i, hi, rfl, hlt⟩
    refine ⟨hk, fun j hj => ?_⟩
    have := hlt j.val (by simpa [Fin.lt_def] using hj)
    simpa using this
  · rintro ⟨hk, hlt⟩
    refine ⟨hk, k.val, by simp, by simp, fun j hj => ?_⟩
    have := hlt ⟨j, by omega⟩ (by simpa [Fin.lt_def] using hj)
    simpa using this

end Sys2Proof.Machine
end

