-- ==== Sys2Proof/Laws/Screen.lean ====
section
/-! SUPPORT. The screen: pixels after a write, and what the sprite loops do to every pixel and to the collision
flag (42_display.md R141 to R143). -/

namespace Sys2Proof.Machine

@[simp] theorem Screen.pixel_setPixel (f : Screen) (px qx : Fin 64) (py qy : Fin 32) (b : Bool) :
    (f.setPixel px py b).pixel qx qy = if qx = px ∧ qy = py then b else f.pixel qx qy := by
  simp only [Screen.pixel, Screen.setPixel, Fin.getElem_fin, Vector.getElem_set]
  by_cases hy : qy = py
  · subst hy
    by_cases hx : qx = px
    · simp [hx]
    · have : ¬ px.val = qx.val := fun e => hx (Fin.ext e.symm)
      simp [hx, this]
  · have : ¬ py.val = qy.val := fun e => hy (Fin.ext e.symm)
    simp [hy, this]

@[simp] theorem Screen.pixel_blank (px : Fin 64) (py : Fin 32) : Screen.blank.pixel px py = false := by
  simp [Screen.pixel, Screen.blank]

/-- Two screens with the same pixels are the same screen. -/
theorem Screen.ext {f g : Screen} (h : ∀ px py, f.pixel px py = g.pixel px py) : f = g := by
  apply Vector.ext
  intro y hy
  apply Vector.ext
  intro x hx
  exact h ⟨x, hx⟩ ⟨y, hy⟩

@[simp] theorem xorPixel_pixel (px qx : Fin 64) (py qy : Fin 32) (b : Bool) (acc : Screen × Bool) :
    (xorPixel px py b acc).1.pixel qx qy = (acc.1.pixel qx qy ^^ (decide (qx = px ∧ qy = py) && b)) := by
  simp only [xorPixel, Screen.pixel_setPixel]
  by_cases h : qx = px ∧ qy = py
  · simp [h.1, h.2]
  · rw [if_neg h, decide_eq_false h, Bool.false_and, Bool.xor_false]

@[simp] theorem xorPixel_hit (px : Fin 64) (py : Fin 32) (b : Bool) (acc : Screen × Bool) :
    (xorPixel px py b acc).2 = (acc.2 || (acc.1.pixel px py && b)) := rfl

/-- The distance of column `px` from column `x0`, rightward with wrap. -/
def columnOf (x0 : Nat) (px : Fin 64) : Nat := (px.val + 64 - x0 % 64) % 64

/-- The distance of row `py` from row `y0`, downward with wrap. -/
def rowOf (y0 : Nat) (py : Fin 32) : Nat := (py.val + 32 - y0 % 32) % 32

theorem columnOf_iff {x0 c : Nat} (hc : c < 64) (px : Fin 64) : px = wrapX (x0 + c) ↔ c = columnOf x0 px := by
  have := px.isLt
  rw [Fin.ext_iff]
  simp only [wrapX, columnOf]
  omega

theorem rowOf_iff {y0 r : Nat} (hr : r < 32) (py : Fin 32) : py = wrapY (y0 + r) ↔ r = rowOf y0 py := by
  have := py.isLt
  rw [Fin.ext_iff]
  simp only [wrapY, rowOf]
  omega

/-- `columns` of one sprite row drawn: each pixel of the row takes the XOR with the bit of its column. -/
theorem foldColumns_pixel (x0 : Nat) (py : Fin 32) (b : Byte) (cs : List Nat) (hn : cs.Nodup)
    (hc : ∀ c ∈ cs, c < 64) (acc : Screen × Bool) (qx : Fin 64) (qy : Fin 32) :
    (cs.foldl (fun acc c => xorPixel (wrapX (x0 + c)) py (b.getLsbD (7 - c)) acc) acc).1.pixel qx qy
      = (acc.1.pixel qx qy ^^ (decide (qy = py ∧ columnOf x0 qx ∈ cs) && b.getLsbD (7 - columnOf x0 qx))) := by
  induction cs generalizing acc with
  | nil => simp
  | cons c cs ih =>
    rw [List.foldl_cons, ih (List.nodup_cons.1 hn).2 (fun d hd => hc d (by simp [hd])), xorPixel_pixel]
    have hiff := columnOf_iff (x0 := x0) (hc c (by simp)) qx
    by_cases hq : c = columnOf x0 qx
    · have hnot : columnOf x0 qx ∉ cs := hq ▸ (List.nodup_cons.1 hn).1
      have hx : qx = wrapX (x0 + columnOf x0 qx) := hq ▸ hiff.2 hq
      by_cases hy : qy = py
      · simp [hq, hnot, hy]; intro _; exact hx
      · simp [hnot, hy]
    · have hx : ¬ qx = wrapX (x0 + c) := fun e => hq (hiff.1 e)
      simp [hx, Ne.symm hq]

/-- `columns` of one sprite row drawn: a collision is a 1 bit on a pixel that was 1. -/
theorem foldColumns_hit (x0 : Nat) (py : Fin 32) (b : Byte) (cs : List Nat) (hn : cs.Nodup)
    (hc : ∀ c ∈ cs, c < 64) (acc : Screen × Bool) :
    (cs.foldl (fun acc c => xorPixel (wrapX (x0 + c)) py (b.getLsbD (7 - c)) acc) acc).2 = true
      ↔ acc.2 = true ∨ ∃ qx, columnOf x0 qx ∈ cs ∧ acc.1.pixel qx py = true
          ∧ b.getLsbD (7 - columnOf x0 qx) = true := by
  induction cs generalizing acc with
  | nil => simp
  | cons c cs ih =>
    have hn' := List.nodup_cons.1 hn
    rw [List.foldl_cons, ih hn'.2 (fun d hd => hc d (by simp [hd]))]
    simp only [xorPixel_hit, Bool.or_eq_true, Bool.and_eq_true, List.mem_cons]
    have hcol : columnOf x0 (wrapX (x0 + c)) = c :=
      ((columnOf_iff (hc c (by simp)) _).1 rfl).symm
    constructor
    · rintro ((h | ⟨h, hb⟩) | ⟨qx, hm, hp, hb⟩)
      · exact .inl h
      · exact .inr ⟨_, .inl hcol, h, by rw [hcol]; exact hb⟩
      · have hne : qx ≠ wrapX (x0 + c) := by rintro rfl; rw [hcol] at hm; exact hn'.1 hm
        rw [xorPixel_pixel] at hp
        simp only [hne, false_and, decide_false, Bool.false_and, Bool.xor_false] at hp
        exact .inr ⟨qx, .inr hm, hp, hb⟩
    · rintro (h | ⟨qx, hm | hm, hp, hb⟩)
      · exact .inl (.inl h)
      · have hx : qx = wrapX (x0 + c) := (columnOf_iff (hc c (by simp)) qx).2 hm.symm
        exact .inl (.inr ⟨hx ▸ hp, by rw [hm] at hb; exact hb⟩)
      · have hne : qx ≠ wrapX (x0 + c) := by rintro rfl; rw [hcol] at hm; exact hn'.1 hm
        refine .inr ⟨qx, hm, ?_, hb⟩
        rw [xorPixel_pixel]
        simp only [hne, false_and, decide_false, Bool.false_and, Bool.xor_false]
        exact hp

/-- One sprite row: every pixel afterwards. -/
theorem drawRow_pixel (x0 : Nat) (py : Fin 32) (b : Byte) (acc : Screen × Bool) (qx : Fin 64) (qy : Fin 32) :
    (drawRow x0 py b acc).1.pixel qx qy
      = (acc.1.pixel qx qy
          ^^ (decide (qy = py ∧ columnOf x0 qx < 8) && b.getLsbD (7 - columnOf x0 qx))) := by
  unfold drawRow
  rw [foldColumns_pixel x0 py b _ List.nodup_range (by intro c h; rw [List.mem_range] at h; omega)]
  simp only [List.mem_range]

/-- One sprite row: the collision flag afterwards. -/
theorem drawRow_hit (x0 : Nat) (py : Fin 32) (b : Byte) (acc : Screen × Bool) :
    (drawRow x0 py b acc).2 = true
      ↔ acc.2 = true ∨ ∃ qx, columnOf x0 qx < 8 ∧ acc.1.pixel qx py = true
          ∧ b.getLsbD (7 - columnOf x0 qx) = true := by
  unfold drawRow
  rw [foldColumns_hit x0 py b _ List.nodup_range (by intro c h; rw [List.mem_range] at h; omega)]
  simp only [List.mem_range]

theorem spriteBit_eq (x0 y0 : Nat) (b : List Byte) (px : Fin 64) (py : Fin 32) :
    spriteBit x0 y0 b px py = (decide (columnOf x0 px < 8) && (b.getD (rowOf y0 py) 0).getLsbD (7 - columnOf x0 px)
      && decide (rowOf y0 py < b.length)) := rfl

/-- The first row of a sprite, and the rest one row lower. -/
theorem spriteBit_cons (x0 y0 : Nat) (b : Byte) (bs : List Byte) (hl : (b :: bs).length ≤ 32) (px : Fin 64)
    (py : Fin 32) :
    spriteBit x0 y0 (b :: bs) px py
      = ((decide (py = wrapY y0 ∧ columnOf x0 px < 8) && b.getLsbD (7 - columnOf x0 px))
          ^^ spriteBit x0 (y0 + 1) bs px py) := by
  have h0 := rowOf_iff (y0 := y0) (r := 0) (by omega) py
  simp only [List.length_cons] at hl
  have hpy := py.isLt
  simp only [spriteBit_eq]
  by_cases hr : rowOf y0 py = 0
  · have hpy0 : py = wrapY y0 := h0.2 hr.symm
    have hr1 : ¬ rowOf (y0 + 1) py < bs.length := by
      simp only [rowOf] at hr ⊢; omega
    by_cases hcol : columnOf x0 px < 8 <;> simp [hr, hr1, hpy0.symm, hcol]
  · have hne : ¬ py = wrapY y0 := fun e => hr (h0.1 e).symm
    obtain ⟨k, hk⟩ : ∃ k, rowOf y0 py = k + 1 := ⟨rowOf y0 py - 1, by omega⟩
    have hk1 : rowOf (y0 + 1) py = k := by simp only [rowOf] at hk ⊢; omega
    simp [hk, hk1, hne]

/-- A whole sprite of at most 32 rows: every pixel takes the XOR with the sprite bit that lands on it. -/
theorem drawRows_pixel (x0 y0 : Nat) (b : List Byte) (hl : b.length ≤ 32) (acc : Screen × Bool) (qx : Fin 64)
    (qy : Fin 32) :
    (drawRows x0 y0 b acc).1.pixel qx qy = (acc.1.pixel qx qy ^^ spriteBit x0 y0 b qx qy) := by
  induction b generalizing y0 acc with
  | nil => simp [drawRows, spriteBit]
  | cons c bs ih =>
    have hl' : bs.length ≤ 32 := by simp only [List.length_cons] at hl; omega
    rw [drawRows, ih (y0 + 1) hl', drawRow_pixel, spriteBit_cons _ _ _ _ hl, Bool.xor_assoc]

/-- A whole sprite of at most 32 rows: the collision flag is set exactly when a 1 bit landed on a 1 pixel. -/
theorem drawRows_hit (x0 y0 : Nat) (b : List Byte) (hl : b.length ≤ 32) (acc : Screen × Bool) :
    (drawRows x0 y0 b acc).2 = true ↔ acc.2 = true ∨ collides acc.1 x0 y0 b := by
  induction b generalizing y0 acc with
  | nil => simp [drawRows, collides, spriteBit]
  | cons c bs ih =>
    have hl' : bs.length ≤ 32 := by simp only [List.length_cons] at hl; omega
    rw [drawRows, ih (y0 + 1) hl', drawRow_hit, or_assoc]
    apply or_congr_right
    have key : ∀ px, spriteBit x0 (y0 + 1) bs px (wrapY y0) = false := by
      intro px
      rw [spriteBit_eq]
      have : ¬ rowOf (y0 + 1) (wrapY y0) < bs.length := by
        simp only [List.length_cons] at hl
        simp only [rowOf, wrapY]; omega
      simp [this]
    constructor
    · rintro (⟨qx, hc, hp, hb⟩ | ⟨qx, qy, hp, hs⟩)
      · exact ⟨qx, wrapY y0, hp, by rw [spriteBit_cons _ _ _ _ hl, key]; simp [hc, hb]⟩
      · have hne : qy ≠ wrapY y0 := by rintro rfl; rw [key] at hs; cases hs
        refine ⟨qx, qy, ?_, by rw [spriteBit_cons _ _ _ _ hl]; simp [hne, hs]⟩
        rw [drawRow_pixel] at hp
        simpa [hne] using hp
    · rintro ⟨qx, qy, hp, hs⟩
      rw [spriteBit_cons _ _ _ _ hl] at hs
      by_cases hy : qy = wrapY y0
      · subst hy
        rw [key] at hs
        simp only [true_and, Bool.xor_false, Bool.and_eq_true, decide_eq_true_eq] at hs
        exact .inl ⟨qx, hs.1, hp, hs.2⟩
      · refine .inr ⟨qx, qy, ?_, by simpa [hy] using hs⟩
        rw [drawRow_pixel]
        simpa [hy] using hp

end Sys2Proof.Machine
end

