-- ==== Sys2Proof/Laws/Exec.lean ====
section
/-! SUPPORT. What `exec` answers for each instruction, in terms of the named operations: one equation for an
instruction that always completes, one per case for an instruction that can raise. Proofs cite these and unfold no
meaning. -/

namespace Sys2Proof.Machine

variable (s : State)

/-! ### Display -/

theorem exec_cls : exec .cls s = .next ((s.advance.setFb Screen.blank).setDirty true) := rfl

theorem exec_drw (x y : Reg) (n : Nibble) (h : n.toNat = 0 ∨ s.I.toNat + (n.toNat - 1) ≤ 0xFFF) :
    exec (.drw x y n) s = .next (s.advance.drawSprite x y (s.spriteBytes n)) := by
  have h' := State.readBytes_ok s.advance (base := s.I.toNat) h
  rw [exec, execDrw, execute_ok]
  exact congrArg (Except.map _) h'

theorem exec_drw_raises (x y : Reg) (n : Nibble) (h0 : n.toNat ≠ 0) (h : s.I.toNat + (n.toNat - 1) > 0xFFF) :
    exec (.drw x y n) s = .next (s.takeFault (.address (max s.I.toNat 0x1000))) := by
  have h' := State.readBytes_error s.advance (base := s.I.toNat) h0 h
  rw [exec, execDrw, execute_error]
  exact congrArg (Except.map _) h'

/-! ### Control transfer -/

theorem exec_jp (nnn : Addr12) : exec (.jp nnn) s = .next (s.advance.setPc (zext12 nnn)) := rfl

theorem exec_call (nnn : Addr12) (h : s.sp.val < 16) :
    exec (.call nnn) s = .next
      { s with pc := zext12 nnn, stack := s.stack.set s.sp.val (s.pc + 2) h, sp := ⟨s.sp.val + 1, by omega⟩ } := by
  have h' := State.push_ok s.advance s.advance.pc h
  rw [exec, execCall, execute_ok]
  exact congrArg (Except.map _) h'

theorem exec_call_raises (nnn : Addr12) (h : s.sp.val = 16) :
    exec (.call nnn) s = .next (s.takeFault (.stack .overflow)) := by
  have h' := State.push_full s.advance s.advance.pc h
  rw [exec, execCall, execute_error]
  exact congrArg (Except.map _) h'

theorem exec_ret (h : s.sp.val ≠ 0) :
    exec .ret s = .next
      { s with pc := s.stack[s.sp.val - 1]'(by omega), sp := ⟨s.sp.val - 1, by omega⟩ } := by
  have h' := State.pop_ok s.advance h
  rw [exec, execRet, execute_ok]
  exact congrArg (Except.map _) h'

theorem exec_ret_raises (h : s.sp.val = 0) : exec .ret s = .next (s.takeFault (.stack .underflow)) := by
  have h' := State.pop_empty s.advance h
  rw [exec, execRet, execute_error]
  exact congrArg (Except.map _) h'

theorem exec_seImm (x : Reg) (kk : Byte) :
    exec (.seImm x kk) s = .next (s.advance.skipIf (s.getV x == kk)) := rfl

theorem exec_sneImm (x : Reg) (kk : Byte) :
    exec (.sneImm x kk) s = .next (s.advance.skipIf (s.getV x != kk)) := rfl

theorem exec_seReg (x y : Reg) :
    exec (.seReg x y) s = .next (s.advance.skipIf (s.getV x == s.getV y)) := rfl

theorem exec_sneReg (x y : Reg) :
    exec (.sneReg x y) s = .next (s.advance.skipIf (s.getV x != s.getV y)) := rfl

theorem exec_jpV0 (nnn : Addr12) :
    exec (.jpV0 nnn) s = .next (s.advance.setPc (zext12 nnn + zext8 (s.getV 0))) := rfl

/-! ### Registers -/

theorem exec_ldImm (x : Reg) (kk : Byte) : exec (.ldImm x kk) s = .next (s.advance.setV x kk) := rfl

theorem exec_addImm (x : Reg) (kk : Byte) :
    exec (.addImm x kk) s = .next (s.advance.setV x (s.getV x + kk)) := rfl

theorem exec_ldReg (x y : Reg) : exec (.ldReg x y) s = .next (s.advance.setV x (s.getV y)) := rfl

theorem exec_orReg (x y : Reg) :
    exec (.orReg x y) s = .next (s.advance.setV x (s.getV x ||| s.getV y)) := rfl

theorem exec_andReg (x y : Reg) :
    exec (.andReg x y) s = .next (s.advance.setV x (s.getV x &&& s.getV y)) := rfl

theorem exec_xorReg (x y : Reg) :
    exec (.xorReg x y) s = .next (s.advance.setV x (s.getV x ^^^ s.getV y)) := rfl

theorem exec_addReg (x y : Reg) :
    exec (.addReg x y) s = .next (s.advance.setResultAndFlag x (addWithCarry (s.getV x) (s.getV y))) := rfl

theorem exec_subReg (x y : Reg) :
    exec (.subReg x y) s = .next (s.advance.setResultAndFlag x (subNoBorrow (s.getV x) (s.getV y))) := rfl

theorem exec_subnReg (x y : Reg) :
    exec (.subnReg x y) s = .next (s.advance.setResultAndFlag x (subNoBorrow (s.getV y) (s.getV x))) := rfl

theorem exec_shr (x y : Reg) :
    exec (.shr x y) s = .next (s.advance.setResultAndFlag x (shiftRightOne (s.getV x))) := rfl

theorem exec_shl (x y : Reg) :
    exec (.shl x y) s = .next (s.advance.setResultAndFlag x (shiftLeftOne (s.getV x))) := rfl

theorem exec_rnd (x : Reg) (kk : Byte) :
    exec (.rnd x kk) s = .next (s.advance.countDraw.setV x (Config.randomByte s.draws &&& kk)) := rfl

/-! ### Keypad and timers -/

theorem exec_skp (x : Reg) (h : (s.getV x).toNat ≤ 15) :
    exec (.skp x) s = .next (s.advance.skipIf (s.isPressed (lowNibbleKey (s.getV x)))) := by
  have h' := keyIndex_ok Config.keyIndexMode h
  rw [exec, execSkp, execute_ok]
  exact congrArg (Except.map _) h'

theorem exec_skp_raises (x : Reg) (h : (s.getV x).toNat > 15) :
    exec (.skp x) s = .next (s.takeFault (.invalidKey (s.getV x).toNat)) := by
  have h' := keyIndex_error h
  rw [exec, execSkp, execute_error]
  exact congrArg (Except.map _) h'

theorem exec_sknp (x : Reg) (h : (s.getV x).toNat ≤ 15) :
    exec (.sknp x) s = .next (s.advance.skipIf (!s.isPressed (lowNibbleKey (s.getV x)))) := by
  have h' := keyIndex_ok Config.keyIndexMode h
  rw [exec, execSknp, execute_ok]
  exact congrArg (Except.map _) h'

theorem exec_sknp_raises (x : Reg) (h : (s.getV x).toNat > 15) :
    exec (.sknp x) s = .next (s.takeFault (.invalidKey (s.getV x).toNat)) := by
  have h' := keyIndex_error h
  rw [exec, execSknp, execute_error]
  exact congrArg (Except.map _) h'

theorem exec_ldVxDt (x : Reg) : exec (.ldVxDt x) s = .next (s.advance.setV x s.DT) := rfl

theorem exec_ldVxK (x : Reg) (k : Fin 16) (h : s.lowestKey = some k) :
    exec (.ldVxK x) s = .next (s.advance.setV x (BitVec.ofNat 8 k.val)) := by
  have h' : s.advance.lowestKey = some k := h
  rw [exec, execLdVxK, execute_ok]
  rw [h']

theorem exec_ldVxK_waits (x : Reg) (h : s.lowestKey = none) : exec (.ldVxK x) s = .next s := by
  have h' : s.advance.lowestKey = none := h
  rw [exec, execLdVxK, execute_ok]
  rw [h']
  simp [State.advance, State.setPc]

theorem exec_ldDtVx (x : Reg) : exec (.ldDtVx x) s = .next (s.advance.setDT (s.getV x)) := rfl

theorem exec_ldStVx (x : Reg) : exec (.ldStVx x) s = .next (s.advance.setST (s.getV x)) := rfl

/-! ### The index register and memory -/

theorem exec_ldI (nnn : Addr12) : exec (.ldI nnn) s = .next (s.advance.setI (zext12 nnn)) := rfl

theorem exec_addI (x : Reg) : exec (.addI x) s = .next (s.advance.setI (s.I + zext8 (s.getV x))) := rfl

theorem exec_ldF (x : Reg) : exec (.ldF x) s = .next (s.advance.setI (fontAddress (s.getV x))) := rfl

theorem exec_ldB (x : Reg) (h : s.I.toNat + 2 ≤ 0xFFF) :
    exec (.ldB x) s = .next (s.advance.setMem (Memory.writeAll s.mem s.I.toNat (bcdDigits (s.getV x)))) := by
  have h' := State.writeBytes_ok s.advance (base := s.I.toNat) (bs := bcdDigits (s.getV x)) (.inr h)
  rw [exec, execLdB, execute_ok]
  exact h'

theorem exec_ldB_raises (x : Reg) (h : s.I.toNat + 2 > 0xFFF) :
    exec (.ldB x) s = .next (s.takeFault (.address (max s.I.toNat 0x1000))) := by
  have h' := State.writeBytes_error s.advance (base := s.I.toNat) (bs := bcdDigits (s.getV x)) (by simp) h
  rw [exec, execLdB, execute_error]
  exact h'

theorem exec_storeRegs (x : Reg) (h : s.I.toNat + x.toNat ≤ 0xFFF) :
    exec (.storeRegs x) s = .next (s.advance.setMem (Memory.writeAll s.mem s.I.toNat (s.lowRegs x))) := by
  have h' := State.writeBytes_ok s.advance (base := s.I.toNat) (bs := s.lowRegs x) (.inr (by simpa using h))
  rw [exec, execStoreRegs, execute_ok]
  exact h'

theorem exec_storeRegs_raises (x : Reg) (h : s.I.toNat + x.toNat > 0xFFF) :
    exec (.storeRegs x) s = .next (s.takeFault (.address (max s.I.toNat 0x1000))) := by
  have h' := State.writeBytes_error s.advance (base := s.I.toNat) (bs := s.lowRegs x) (by simp) (by simpa using h)
  rw [exec, execStoreRegs, execute_error]
  exact h'

theorem exec_loadRegs (x : Reg) (h : s.I.toNat + x.toNat ≤ 0xFFF) :
    exec (.loadRegs x) s = .next
      (s.advance.setAllV
        (setManyV s.V 0 ((List.range (x.toNat + 1)).map fun k => s.byteAt (s.I.toNat + k)))) := by
  have h' := State.readBytes_ok s.advance (base := s.I.toNat) (count := x.toNat + 1) (.inr h)
  rw [exec, execLoadRegs, execute_ok]
  exact congrArg (Except.map _) h'

theorem exec_loadRegs_raises (x : Reg) (h : s.I.toNat + x.toNat > 0xFFF) :
    exec (.loadRegs x) s = .next (s.takeFault (.address (max s.I.toNat 0x1000))) := by
  have h' := State.readBytes_error s.advance (base := s.I.toNat) (count := x.toNat + 1) (by simp) h
  rw [exec, execLoadRegs, execute_error]
  exact congrArg (Except.map _) h'

/-! ### Sizes of the address fields -/

@[simp] theorem zext12_toNat (nnn : Addr12) : (zext12 nnn).toNat = nnn.toNat := by
  have := nnn.isLt
  simp [zext12]; omega

@[simp] theorem zext8_toNat (v : Byte) : (zext8 v).toNat = v.toNat := by
  have := v.isLt
  simp [zext8]; omega

end Sys2Proof.Machine
end

