-- ==== Sys2Proof/Laws/PerInstr.lean ====
section
/-! SUPPORT. What holds of every instruction as syntax: its operands fit their fields, and its opcode selects its
own row of the opcode table (30_encoding.md R84). One lemma per constructor. -/

namespace Sys2Proof

/-! ### The bits of the three formats -/

theorem encodeNNN_bit (fam : Nibble) (nnn : Addr12) (i : Nat) :
    (encodeNNN fam nnn).getLsbD i = if i < 12 then nnn.getLsbD i else fam.getLsbD (i - 12) :=
  BitVec.getLsbD_append

theorem encodeXKK_bit (fam : Nibble) (x : Reg) (kk : Byte) (i : Nat) :
    (encodeXKK fam x kk).getLsbD i
      = if i < 8 then kk.getLsbD i else if i - 8 < 4 then x.getLsbD (i - 8) else fam.getLsbD (i - 8 - 4) := by
  rw [← BitVec.getLsbD_append]
  exact BitVec.getLsbD_append

theorem encodeXYN_bit (fam : Nibble) (x y : Reg) (n : Nibble) (i : Nat) :
    (encodeXYN fam x y n).getLsbD i
      = if i < 4 then n.getLsbD i else if i - 4 < 4 then y.getLsbD (i - 4)
        else if i - 4 - 4 < 4 then x.getLsbD (i - 4 - 4) else fam.getLsbD (i - 4 - 4 - 4) := by
  rw [← BitVec.getLsbD_append, ← BitVec.getLsbD_append]
  exact BitVec.getLsbD_append

/-! ### Masking them -/

theorem encodeNNN_mask (fam : Nibble) (nnn : Addr12) : encodeNNN fam nnn &&& 0xF000#16 = encodeNNN fam 0 := by
  apply BitVec.eq_of_getLsbD_eq
  intro i hi
  rw [BitVec.getLsbD_and, encodeNNN_bit, encodeNNN_bit]
  interval_cases i <;> simp

theorem encodeXKK_mask_family (fam : Nibble) (x : Reg) (kk : Byte) :
    encodeXKK fam x kk &&& 0xF000#16 = encodeXKK fam 0 0 := by
  apply BitVec.eq_of_getLsbD_eq
  intro i hi
  rw [BitVec.getLsbD_and, encodeXKK_bit, encodeXKK_bit]
  interval_cases i <;> simp

theorem encodeXKK_mask_selector (fam : Nibble) (x : Reg) (kk : Byte) :
    encodeXKK fam x kk &&& 0xF0FF#16 = encodeXKK fam 0 kk := by
  apply BitVec.eq_of_getLsbD_eq
  intro i hi
  rw [BitVec.getLsbD_and, encodeXKK_bit, encodeXKK_bit]
  interval_cases i <;> simp

theorem encodeXYN_mask_family (fam : Nibble) (x y : Reg) (n : Nibble) :
    encodeXYN fam x y n &&& 0xF000#16 = encodeXYN fam 0 0 0 := by
  apply BitVec.eq_of_getLsbD_eq
  intro i hi
  rw [BitVec.getLsbD_and, encodeXYN_bit, encodeXYN_bit]
  interval_cases i <;> simp

theorem encodeXYN_mask_selector (fam : Nibble) (x y : Reg) (n : Nibble) :
    encodeXYN fam x y n &&& 0xF00F#16 = encodeXYN fam 0 0 n := by
  apply BitVec.eq_of_getLsbD_eq
  intro i hi
  rw [BitVec.getLsbD_and, encodeXYN_bit, encodeXYN_bit]
  interval_cases i <;> simp

/-! ### Slicing them -/

@[simp] theorem encodeNNN_fam (fam : Nibble) (nnn : Addr12) : fieldFam (encodeNNN fam nnn) = fam := by
  apply BitVec.eq_of_getLsbD_eq
  intro i hi
  rw [fieldFam, BitVec.getLsbD_extractLsb', encodeNNN_bit]
  interval_cases i <;> simp

@[simp] theorem encodeNNN_nnn (fam : Nibble) (nnn : Addr12) : fieldNNN (encodeNNN fam nnn) = nnn := by
  apply BitVec.eq_of_getLsbD_eq
  intro i hi
  rw [fieldNNN, BitVec.getLsbD_extractLsb', encodeNNN_bit]
  interval_cases i <;> simp

@[simp] theorem encodeXKK_fam (fam : Nibble) (x : Reg) (kk : Byte) : fieldFam (encodeXKK fam x kk) = fam := by
  apply BitVec.eq_of_getLsbD_eq
  intro i hi
  rw [fieldFam, BitVec.getLsbD_extractLsb', encodeXKK_bit]
  interval_cases i <;> simp

@[simp] theorem encodeXKK_x (fam : Nibble) (x : Reg) (kk : Byte) : fieldX (encodeXKK fam x kk) = x := by
  apply BitVec.eq_of_getLsbD_eq
  intro i hi
  rw [fieldX, BitVec.getLsbD_extractLsb', encodeXKK_bit]
  interval_cases i <;> simp

@[simp] theorem encodeXKK_kk (fam : Nibble) (x : Reg) (kk : Byte) : fieldKK (encodeXKK fam x kk) = kk := by
  apply BitVec.eq_of_getLsbD_eq
  intro i hi
  rw [fieldKK, BitVec.getLsbD_extractLsb', encodeXKK_bit]
  interval_cases i <;> simp

@[simp] theorem encodeXYN_fam (fam : Nibble) (x y : Reg) (n : Nibble) : fieldFam (encodeXYN fam x y n) = fam := by
  apply BitVec.eq_of_getLsbD_eq
  intro i hi
  rw [fieldFam, BitVec.getLsbD_extractLsb', encodeXYN_bit]
  interval_cases i <;> simp

@[simp] theorem encodeXYN_x (fam : Nibble) (x y : Reg) (n : Nibble) : fieldX (encodeXYN fam x y n) = x := by
  apply BitVec.eq_of_getLsbD_eq
  intro i hi
  rw [fieldX, BitVec.getLsbD_extractLsb', encodeXYN_bit]
  interval_cases i <;> simp

@[simp] theorem encodeXYN_y (fam : Nibble) (x y : Reg) (n : Nibble) : fieldY (encodeXYN fam x y n) = y := by
  apply BitVec.eq_of_getLsbD_eq
  intro i hi
  rw [fieldY, BitVec.getLsbD_extractLsb', encodeXYN_bit]
  interval_cases i <;> simp

@[simp] theorem encodeXYN_n (fam : Nibble) (x y : Reg) (n : Nibble) : fieldN (encodeXYN fam x y n) = n := by
  apply BitVec.eq_of_getLsbD_eq
  intro i hi
  rw [fieldN, BitVec.getLsbD_extractLsb', encodeXYN_bit]
  interval_cases i <;> simp

/-! ### Operands fit their fields -/

/-- No value of `Instr` is ill-formed: the operand types have the fields' widths. -/
theorem Instr.wellFormed_all (i : Instr) : i.wellFormed = true := by
  have h4 : ∀ v : BitVec 4, fits 4 v.toNat = true := fun v => decide_eq_true v.isLt
  have h8 : ∀ v : BitVec 8, fits 8 v.toNat = true := fun v => decide_eq_true v.isLt
  have h12 : ∀ v : BitVec 12, fits 12 v.toNat = true := fun v => decide_eq_true v.isLt
  cases i <;> simp only [Instr.wellFormed, h4, h8, h12, Bool.and_self]

/-! ### Every instruction's opcode selects its own row -/

/-- The opcode of `i` has the match value of `i`'s row under the row's mask. -/
def Laws.EncodedRow.Statement (i : Instr) : Prop := encode i &&& (tableRow i).mask = (tableRow i).value

namespace Laws.EncodedRow

theorem cls : Statement .cls := by unfold Statement; decide
theorem ret : Statement .ret := by unfold Statement; decide
theorem jp (nnn : Addr12) : Statement (.jp nnn) := encodeNNN_mask _ _
theorem call (nnn : Addr12) : Statement (.call nnn) := encodeNNN_mask _ _
theorem seImm (x : Reg) (kk : Byte) : Statement (.seImm x kk) := encodeXKK_mask_family _ _ _
theorem sneImm (x : Reg) (kk : Byte) : Statement (.sneImm x kk) := encodeXKK_mask_family _ _ _
theorem seReg (x y : Reg) : Statement (.seReg x y) := encodeXYN_mask_selector _ _ _ _
theorem ldImm (x : Reg) (kk : Byte) : Statement (.ldImm x kk) := encodeXKK_mask_family _ _ _
theorem addImm (x : Reg) (kk : Byte) : Statement (.addImm x kk) := encodeXKK_mask_family _ _ _
theorem ldReg (x y : Reg) : Statement (.ldReg x y) := encodeXYN_mask_selector _ _ _ _
theorem orReg (x y : Reg) : Statement (.orReg x y) := encodeXYN_mask_selector _ _ _ _
theorem andReg (x y : Reg) : Statement (.andReg x y) := encodeXYN_mask_selector _ _ _ _
theorem xorReg (x y : Reg) : Statement (.xorReg x y) := encodeXYN_mask_selector _ _ _ _
theorem addReg (x y : Reg) : Statement (.addReg x y) := encodeXYN_mask_selector _ _ _ _
theorem subReg (x y : Reg) : Statement (.subReg x y) := encodeXYN_mask_selector _ _ _ _
theorem shr (x y : Reg) : Statement (.shr x y) := encodeXYN_mask_selector _ _ _ _
theorem subnReg (x y : Reg) : Statement (.subnReg x y) := encodeXYN_mask_selector _ _ _ _
theorem shl (x y : Reg) : Statement (.shl x y) := encodeXYN_mask_selector _ _ _ _
theorem sneReg (x y : Reg) : Statement (.sneReg x y) := encodeXYN_mask_selector _ _ _ _
theorem ldI (nnn : Addr12) : Statement (.ldI nnn) := encodeNNN_mask _ _
theorem jpV0 (nnn : Addr12) : Statement (.jpV0 nnn) := encodeNNN_mask _ _
theorem rnd (x : Reg) (kk : Byte) : Statement (.rnd x kk) := encodeXKK_mask_family _ _ _
theorem drw (x y : Reg) (n : Nibble) : Statement (.drw x y n) := encodeXYN_mask_family _ _ _ _
theorem skp (x : Reg) : Statement (.skp x) := encodeXKK_mask_selector _ _ _
theorem sknp (x : Reg) : Statement (.sknp x) := encodeXKK_mask_selector _ _ _
theorem ldVxDt (x : Reg) : Statement (.ldVxDt x) := encodeXKK_mask_selector _ _ _
theorem ldVxK (x : Reg) : Statement (.ldVxK x) := encodeXKK_mask_selector _ _ _
theorem ldDtVx (x : Reg) : Statement (.ldDtVx x) := encodeXKK_mask_selector _ _ _
theorem ldStVx (x : Reg) : Statement (.ldStVx x) := encodeXKK_mask_selector _ _ _
theorem addI (x : Reg) : Statement (.addI x) := encodeXKK_mask_selector _ _ _
theorem ldF (x : Reg) : Statement (.ldF x) := encodeXKK_mask_selector _ _ _
theorem ldB (x : Reg) : Statement (.ldB x) := encodeXKK_mask_selector _ _ _
theorem storeRegs (x : Reg) : Statement (.storeRegs x) := encodeXKK_mask_selector _ _ _
theorem loadRegs (x : Reg) : Statement (.loadRegs x) := encodeXKK_mask_selector _ _ _

end Laws.EncodedRow

end Sys2Proof
end

