-- ==== Sys2Proof/Laws/Ports.lean ====
section
/-! SUPPORT. One lemma per host operation, saying once what it can do. -/

namespace Sys2Proof.Machine

variable (s : State)

/-! ### `create` -/

/-- An image that loads fits, and the machine is the loaded one. -/
theorem create_cases {rom : List Byte} {t : State} (h : create rom = .ok t) :
    t = State.loaded rom ∧ 1 ≤ rom.length ∧ rom.length ≤ 3584 := by
  unfold create at h
  split at h
  · cases h
  · next h0 =>
    split at h
    · cases h
    · next h1 =>
      simp only [Config.progMax] at h1
      cases h
      exact ⟨rfl, by omega, by omega⟩

/-- The memory of a loaded machine: the image from 0x200, else the reset content. -/
theorem State.loaded_byteAt (rom : List Byte) (a : Nat) :
    (State.loaded rom).byteAt a
      = if 0x200 ≤ a ∧ a < 0x200 + rom.length then rom.getD (a - 0x200) 0 else resetByte a := by
  unfold State.loaded
  rw [State.setMem_byteAt, Memory.read_writeAll]
  rfl

/-! ### The timer tick and the keypad -/

/-- One tick of one timer, as natural numbers. -/
theorem tickDown_toNat (b : Byte) : (tickDown b).toNat = b.toNat - 1 := by
  revert b
  decide

theorem State.keyEvent_ok {k : Nat} (h : k < 16) (b : Bool) : s.keyEvent k b = .ok (s.setKey ⟨k, h⟩ b) := dif_pos h

theorem State.keyEvent_error {k : Nat} (h : k > 15) (b : Bool) : s.keyEvent k b = .error (.invalidKey k) :=
  dif_neg (by omega)

/-! ### The run port -/

/-- A faulted machine executes nothing. -/
theorem runSteps_faulted {f : Fault} (h : s.fault = some f) (n : Nat) : runSteps n s = .next s := by
  cases n <;> simp [runSteps, h]

/-- One more step at the front of a run. -/
theorem runSteps_succ {t : State} (hf : s.fault = none) (h : step s = .next t) (n : Nat) :
    runSteps (n + 1) s = runSteps n t := by simp [runSteps, hf, h]

/-- What a `run` counts as its steps and what it carries make up its time at its rate and what it was given. -/
theorem budget_carry {p : Config.Pacing} (hc : p.carry = true) (r e : Rat) :
    ((budget p r e).1 : Rat) + (budget p r e).2 = e * p.ips + r := by
  unfold budget
  simp [hc]

/-- Without the carry the remainder stays 0. -/
theorem budget_no_carry {p : Config.Pacing} (hc : p.carry = false) (r e : Rat) : (budget p r e).2 = 0 := by
  unfold budget
  simp [hc]

end Sys2Proof.Machine
end

