-- ==== Sys2Proof/Tests/Slice0.lean ====
section
/-! SUPPORT. The model's own tests. Expected results come from spec/95_test_vectors.md (the vector's name stands in
the comment) or from the rule named. Each runs one step or one operation on a small state. -/

namespace Sys2Proof.Tests

open Sys2Proof.Machine

/-! ### Helpers -/

/-- Reset with `pc` at `a`. -/
def at_ (a : Word) : State := State.reset.setPc a

/-- Reset with these registers. -/
def regs (l : List (Reg × Byte)) : State := l.foldl (fun s p => s.setV p.1 p.2) State.reset

/-- `s` with these bytes in memory from `a`. -/
def State.bytes (s : State) (a : Nat) (l : List Byte) : State := s.setMem (Memory.writeAll s.mem a l)

/-- The state after one step at the opcode `w`, which is placed at `pc`. -/
def after (s : State) (w : Nat) : State :=
  match step (s.withFetchWord 16 w) with
  | .next t => t
  | _ => s

/-- `s` with `n` addresses saved. -/
def depth (s : State) (n : Fin 17) : State := { s with sp := n }

/-- `s` with the latch set. -/
def faulted (s : State) : State := s.takeFault (.decode 0)

/-! ### Well-formedness: each check refuses an ill-formed term -/

/-- A field of 4 bits does not hold 16, one of 8 not 256, one of 12 not 4096 (R81). -/
theorem test_fits : fits 4 15 = true ∧ fits 4 16 = false ∧ fits 8 256 = false ∧ fits 12 4096 = false := by decide

/-- V-L1: no image of no bytes. -/
theorem test_image_empty : imageWellFormed [] = false ∧ create [] = .error .empty := by
  constructor <;> rfl

/-- V-L4: an image of 3585 bytes is too large; V-L3: one of 3584 fits. -/
theorem test_image_size (rom : List Byte) : (rom.length = 3585 → imageWellFormed rom = false) ∧
    (rom.length = 3584 → imageWellFormed rom = true) := by
  constructor <;> intro h <;> unfold imageWellFormed <;> rw [h] <;> rfl

/-- V-E9 to V-E20: illegal opcodes are refused by name. -/
theorem test_illegal_opcodes :
    decodeWord 0x0000 = .error (.illegal 0x0000) ∧ decodeWord 0x00E1 = .error (.illegal 0x00E1) ∧
    decodeWord 0x0123 = .error (.illegal 0x0123) ∧ decodeWord 0x5121 = .error (.illegal 0x5121) ∧
    decodeWord 0x9AB1 = .error (.illegal 0x9AB1) ∧ decodeWord 0x8018 = .error (.illegal 0x8018) ∧
    decodeWord 0x801F = .error (.illegal 0x801F) ∧ decodeWord 0xE19F = .error (.illegal 0xE19F) ∧
    decodeWord 0xE000 = .error (.illegal 0xE000) ∧ decodeWord 0xF100 = .error (.illegal 0xF100) ∧
    decodeWord 0xF175 = .error (.illegal 0xF175) ∧ decodeWord 0x00FD = .error (.illegal 0x00FD) :=
  ⟨rfl, rfl, rfl, rfl, rfl, rfl, rfl, rfl, rfl, rfl, rfl, rfl⟩

/-- R80: an instruction is two bytes, not fewer. -/
theorem test_truncated : decodeBytes [] = .error (.truncated 0) ∧ decodeBytes [0x61] = .error (.truncated 1) := by
  decide

/-! ### Decoding: a word of every constructor, written out from R84's pattern -/

theorem test_decode_family0 : decodeWord 0b0000_0000_1110_0000 = .ok .cls ∧
    decodeWord 0b0000_0000_1110_1110 = .ok .ret := by decide

theorem test_decode_addresses : decodeWord 0b0001_0010_0010_1000 = .ok (.jp 0x228) ∧
    decodeWord 0b0010_0010_0001_0000 = .ok (.call 0x210) ∧ decodeWord 0b1010_0011_0000_0000 = .ok (.ldI 0x300) ∧
    decodeWord 0b1011_1111_1111_1111 = .ok (.jpV0 0xFFF) := by decide

theorem test_decode_immediates : decodeWord 0b0011_0000_0000_0101 = .ok (.seImm 0 5) ∧
    decodeWord 0b0100_0011_0001_0001 = .ok (.sneImm 3 0x11) ∧ decodeWord 0b0110_0001_0000_0101 = .ok (.ldImm 1 5) ∧
    decodeWord 0b0111_0001_1111_1111 = .ok (.addImm 1 0xFF) ∧ decodeWord 0b1100_0001_0000_1111 = .ok (.rnd 1 0xF) := by
  decide

theorem test_decode_register_skips : decodeWord 0b0101_0001_0010_0000 = .ok (.seReg 1 2) ∧
    decodeWord 0b1001_0001_0010_0000 = .ok (.sneReg 1 2) := by decide

/-- V-E1 to V-E3 among them. -/
theorem test_decode_family8 : decodeWord 0b1000_0001_0010_0000 = .ok (.ldReg 1 2) ∧
    decodeWord 0b1000_0000_0001_0001 = .ok (.orReg 0 1) ∧ decodeWord 0b1000_0000_0001_0010 = .ok (.andReg 0 1) ∧
    decodeWord 0b1000_0000_0001_0011 = .ok (.xorReg 0 1) ∧ decodeWord 0b1000_0000_0001_0100 = .ok (.addReg 0 1) ∧
    decodeWord 0b1000_0000_0001_0101 = .ok (.subReg 0 1) ∧ decodeWord 0b1000_1010_1011_0110 = .ok (.shr 10 11) ∧
    decodeWord 0b1000_0000_0001_0111 = .ok (.subnReg 0 1) ∧ decodeWord 0b1000_0010_0011_1110 = .ok (.shl 2 3) := by
  decide

/-- V-E4. -/
theorem test_decode_draw : decodeWord 0b1101_0001_0010_0011 = .ok (.drw 1 2 3) := by decide

theorem test_decode_familyE : decodeWord 0b1110_0100_1001_1110 = .ok (.skp 4) ∧
    decodeWord 0b1110_0100_1010_0001 = .ok (.sknp 4) := by decide

/-- V-E5 and V-E6 among them. -/
theorem test_decode_familyF : decodeWord 0b1111_0101_0000_0111 = .ok (.ldVxDt 5) ∧
    decodeWord 0b1111_0000_0000_1010 = .ok (.ldVxK 0) ∧ decodeWord 0b1111_0000_0001_0101 = .ok (.ldDtVx 0) ∧
    decodeWord 0b1111_0010_0001_1000 = .ok (.ldStVx 2) ∧ decodeWord 0b1111_0001_0001_1110 = .ok (.addI 1) ∧
    decodeWord 0b1111_0011_0010_1001 = .ok (.ldF 3) ∧ decodeWord 0b1111_0000_0011_0011 = .ok (.ldB 0) ∧
    decodeWord 0b1111_0001_0101_0101 = .ok (.storeRegs 1) ∧ decodeWord 0b1111_1111_0110_0101 = .ok (.loadRegs 15) := by
  decide

/-- The fetch byte order of the vectors: 61 05 in memory is 0x6105. -/
theorem test_byte_order : decodeBytes [0x61, 0x05] = .ok (.ldImm 1 5) ∧ decodeTableWord 16 0x6105 = some (.ldImm 1 5) ∧
    (State.reset.withFetchWord 16 0x6105).byteAt 0x200 = 0x61 := by decide

/-! ### Control flow -/

/-- V-C1, V-C3. -/
theorem test_jp : (after State.reset 0x1228).pc = 0x228 ∧ (after State.reset 0x1FFF).pc = 0xFFF := by decide
/-- V-C5, V-C24. -/
theorem test_call : (after (at_ 0x208) 0x2210).stack[0] = 0x20A ∧ (after (at_ 0x208) 0x2210).sp = 1 ∧
    (after (at_ 0x208) 0x2210).pc = 0x210 ∧ (after (at_ 0xFFE) 0x2200).stack[0] = 0x1000 := by decide
/-- V-C8, V-C9. -/
theorem test_call_full : (after (depth (at_ 0x300) 15) 0x2400).stack[15] = 0x302 ∧
    (after (depth (at_ 0x300) 16) 0x2400).fault = some (.stack .overflow) ∧
    (after (depth (at_ 0x300) 16) 0x2400).pc = 0x300 := by decide
/-- V-C6: the popped cell keeps its value. -/
theorem test_ret : (after (after (at_ 0x208) 0x2210) 0x00EE).pc = 0x20A ∧
    (after (after (at_ 0x208) 0x2210) 0x00EE).sp = 0 ∧
    (after (after (at_ 0x208) 0x2210) 0x00EE).stack[0] = 0x20A := by decide
/-- V-C7. -/
theorem test_ret_empty : (after State.reset 0x00EE).fault = some (.stack .underflow) ∧
    (after State.reset 0x00EE).pc = 0x200 ∧ (after State.reset 0x00EE).sp = 0 := by decide
/-- V-C10, V-C11. -/
theorem test_seImm : (after (at_ 0x208) 0x3000).pc = 0x20C ∧ (after ((at_ 0x208).setV 0 1) 0x3000).pc = 0x20A := by
  decide
/-- V-C12, V-C13. -/
theorem test_sneImm : (after ((at_ 0x300).setV 3 0x10) 0x4311).pc = 0x304 ∧
    (after ((at_ 0x300).setV 3 0x10) 0x4310).pc = 0x302 := by decide
/-- V-C14, V-C15. -/
theorem test_seReg : (after (regs [(1, 7), (2, 7)]) 0x5120).pc = 0x204 ∧
    (after (regs [(1, 7), (2, 8)]) 0x5120).pc = 0x202 := by decide
/-- V-C17, V-C18. -/
theorem test_sneReg : (after (regs [(1, 7), (2, 8)]) 0x9120).pc = 0x204 ∧
    (after (regs [(4, 9)]) 0x9440).pc = 0x202 := by decide
/-- V-C19, V-C21. -/
theorem test_jpV0 : (after (regs [(0, 4)]) 0xB300).pc = 0x304 ∧ (after (regs [(0, 0xFF)]) 0xBFFF).pc = 0x10FE := by
  decide
/-- R110, not this hardware: with `QUIRK_JUMP_VX`, B300 adds `V[3]`. -/
theorem test_jump_quirk : jumpOffsetTarget true 0x300 (regs [(0, 4), (3, 0x10)]) = 0x310 := by decide
/-- V-C22: the next step raises. -/
theorem test_fetch_past_the_end : (after (at_ 0xFFE) 0x6005).pc = 0x1000 ∧
    (step (at_ 0x1000) = .next ((at_ 0x1000).takeFault (.address 0x1000))) := ⟨by decide, rfl⟩
/-- V-C25, V-C26. -/
theorem test_fetch_across_the_end : step (at_ 0xFFF) = .next ((at_ 0xFFF).takeFault (.address 0x1000)) ∧
    step (faulted (at_ 0x300)) = .next (faulted (at_ 0x300)) := ⟨rfl, rfl⟩
/-- V-E9: zero memory is no instruction. -/
theorem test_zero_memory : step State.reset = .next (State.reset.takeFault (.decode 0)) := rfl

/-! ### Arithmetic and logic -/

/-- V-A1, V-A2. -/
theorem test_ldImm : (after State.reset 0x6105).getV 1 = 5 ∧ (after (regs [(15, 1)]) 0x6F00).getV 15 = 0 := by decide
/-- V-A3b. -/
theorem test_addImm : (after (regs [(1, 0xFF)]) 0x7101).getV 1 = 0 ∧ (after (regs [(1, 0xFF)]) 0x7101).getV 15 = 0 := by
  decide
/-- V-A3e. -/
theorem test_ldReg : (after (regs [(2, 0x33)]) 0x8120).getV 1 = 0x33 := by decide
/-- V-A3f. -/
theorem test_or : (after (regs [(0, 0xAA), (1, 0x55), (15, 1)]) 0x8011).getV 0 = 0xFF ∧
    (after (regs [(0, 0xAA), (1, 0x55), (15, 1)]) 0x8011).getV 15 = 1 := by decide
/-- V-A3g. -/
theorem test_and : (after (regs [(0, 0xAA), (1, 0x55)]) 0x8012).getV 0 = 0 := by decide
/-- V-A3h, V-A3i. -/
theorem test_xor : (after (regs [(0, 0xAA), (1, 0xFF)]) 0x8013).getV 0 = 0x55 ∧
    (after (regs [(4, 0x7C)]) 0x8443).getV 4 = 0 := by decide
/-- V-A4a (the source's S8), V-A4b. -/
theorem test_add : (after (regs [(0, 7), (1, 5)]) 0x8014).getV 0 = 12 ∧
    (after (regs [(0, 7), (1, 5)]) 0x8014).getV 15 = 0 ∧ (after (regs [(0, 0xFF), (1, 1)]) 0x8014).getV 0 = 0 ∧
    (after (regs [(0, 0xFF), (1, 1)]) 0x8014).getV 15 = 1 := by decide
/-- V-A4g, V-A4i. -/
theorem test_add_flag_register : (after (regs [(15, 0xF0), (1, 0x20)]) 0x8F14).getV 15 = 1 ∧
    (after (regs [(0, 5), (15, 1)]) 0x80F4).getV 0 = 6 ∧ (after (regs [(0, 5), (15, 1)]) 0x80F4).getV 15 = 0 := by decide
/-- V-A5a, V-A5c. -/
theorem test_sub : (after (regs [(0, 5), (1, 7)]) 0x8015).getV 0 = 0xFE ∧
    (after (regs [(0, 5), (1, 7)]) 0x8015).getV 15 = 0 ∧ (after (regs [(0, 5), (1, 5)]) 0x8015).getV 15 = 1 := by decide
/-- V-A5g. -/
theorem test_sub_flag_register : (after (regs [(15, 3), (1, 5)]) 0x8F15).getV 15 = 0 := by decide
/-- V-A7a, V-A7b. -/
theorem test_subn : (after (regs [(0, 5), (1, 7)]) 0x8017).getV 0 = 2 ∧
    (after (regs [(0, 5), (1, 7)]) 0x8017).getV 15 = 1 ∧ (after (regs [(0, 7), (1, 5)]) 0x8017).getV 0 = 0xFE ∧
    (after (regs [(0, 7), (1, 5)]) 0x8017).getV 15 = 0 := by decide
/-- V-A6d, V-A6f. -/
theorem test_shr : (after (regs [(2, 0xFF)]) 0x8206).getV 2 = 0x7F ∧ (after (regs [(2, 0xFF)]) 0x8206).getV 15 = 1 ∧
    (after (regs [(2, 4), (3, 0xFF)]) 0x8236).getV 2 = 2 ∧ (after (regs [(2, 4), (3, 0xFF)]) 0x8236).getV 15 = 0 := by
  decide
/-- V-A6g; and V-A6f with `QUIRK_SHIFT_VY`, not this hardware. -/
theorem test_shr_corners : (after (regs [(15, 3)]) 0x8F06).getV 15 = 1 ∧
    shiftRightOne ((regs [(2, 4), (3, 0xFF)]).getV (shiftSource true 2 3)) = (0x7F, true) := by decide
/-- V-A8a, V-A8e. -/
theorem test_shl : (after (regs [(2, 0x81)]) 0x820E).getV 2 = 2 ∧ (after (regs [(2, 0x81)]) 0x820E).getV 15 = 1 ∧
    (after (regs [(2, 1), (3, 0x80)]) 0x823E).getV 2 = 2 ∧ (after (regs [(2, 1), (3, 0x80)]) 0x823E).getV 15 = 0 := by
  decide
/-- V-A8f. -/
theorem test_shl_flag_register : (after (regs [(15, 0x81)]) 0x8F0E).getV 15 = 1 := by decide
/-- V-A9a, V-A9c: the masking of a drawn byte 0xA7. -/
theorem test_rnd_mask : (State.reset.maskRandom 1 0x0F 0xA7).getV 1 = 0x07 ∧
    (State.reset.maskRandom 1 0xFF 0xA7).getV 1 = 0xA7 := by decide
/-- V-A9b: mask 0 gives 0 whatever is drawn. -/
theorem test_rnd : (after State.reset 0xC100).getV 1 = 0 ∧ (after State.reset 0xC100).draws = 1 := by
  refine ⟨?_, rfl⟩
  have h : ∀ r : Byte, (State.reset.maskRandom 1 0 r).getV 1 = 0 := by decide
  exact h _

/-! ### Display -/

/-- The start of V-D1. -/
def oneRow : State := State.bytes (State.reset.setI 0x300) 0x300 [0xF0]
/-- The start of V-D2. -/
def corner : State := State.bytes ((regs [(1, 63), (2, 31)]).setI 0x300) 0x300 [0xC0, 0xC0]

/-- V-D1. -/
theorem test_drw : (after oneRow 0xD001).fb.pixel 3 0 = true ∧ (after oneRow 0xD001).fb.pixel 4 0 = false ∧
    (after oneRow 0xD001).getV 15 = 0 ∧ (after oneRow 0xD001).dirty = true ∧ (after oneRow 0xD001).I = 0x300 := by
  decide
/-- V-D2: both coordinates wrap. -/
theorem test_drw_wraps : (after corner 0xD122).fb.pixel 63 31 = true ∧ (after corner 0xD122).fb.pixel 0 31 = true ∧
    (after corner 0xD122).fb.pixel 63 0 = true ∧ (after corner 0xD122).fb.pixel 0 0 = true ∧
    (after corner 0xD122).fb.pixel 1 0 = false := by decide
/-- V-D4: a collision. -/
theorem test_collision :
    xorPixel 0 0 true (Screen.blank.setPixel 0 0 true, false) = (Screen.blank, true) := by decide
/-- V-D9: a draw that faults leaves the flag, `dirty` and `pc` alone. -/
theorem test_drw_fault : (after ((regs [(15, 7)]).setI 0xFFF) 0xD002).fault = some (.address 0x1000) ∧
    (after ((regs [(15, 7)]).setI 0xFFF) 0xD002).getV 15 = 7 ∧
    (after ((regs [(15, 7)]).setI 0xFFF) 0xD002).dirty = false ∧
    (after ((regs [(15, 7)]).setI 0xFFF) 0xD002).pc = 0x200 := by decide
/-- V-D11: no rows, nothing read. -/
theorem test_drw_no_rows : (after ((regs [(15, 1)]).setI 0xFFFF) 0xD000).fault = none ∧
    (after ((regs [(15, 1)]).setI 0xFFFF) 0xD000).getV 15 = 0 ∧
    (after ((regs [(15, 1)]).setI 0xFFFF) 0xD000).dirty = true := by decide
/-- V-D12. -/
theorem test_cls : (after ((regs [(15, 1)]).setFb (Screen.blank.setPixel 5 5 true)) 0x00E0).fb = Screen.blank ∧
    (after (regs [(15, 1)]) 0x00E0).dirty = true ∧ (after (regs [(15, 1)]) 0x00E0).getV 15 = 1 := by decide

/-! ### Keypad and timers -/

/-- V-K1, V-K2. -/
theorem test_skp : (after ((regs [(4, 10)]).setKey 10 true) 0xE49E).pc = 0x204 ∧
    (after (regs [(4, 10)]) 0xE49E).pc = 0x202 := by decide
/-- V-K5; with `KEY_INDEX_MODE` mask, key 0. -/
theorem test_skp_bad_index : (after (regs [(4, 0x10)]) 0xE49E).fault = some (.invalidKey 16) ∧
    keyIndex .mask 0x10 = .ok 0 := by decide
/-- V-K3, V-K4. -/
theorem test_sknp : (after (regs [(4, 10)]) 0xE4A1).pc = 0x204 ∧
    (after ((regs [(4, 10)]).setKey 10 true) 0xE4A1).pc = 0x202 := by decide
/-- V-K6. -/
theorem test_sknp_bad_index : (after (regs [(4, 0xFF)]) 0xE4A1).fault = some (.invalidKey 255) := by decide
/-- V-T1. -/
theorem test_ldVxDt : (after (State.reset.setDT 0x2A) 0xF507).getV 5 = 0x2A := by decide
/-- V-K7. -/
theorem test_ldVxK_waits : (after ((at_ 0x220).setV 3 0x55) 0xF30A).pc = 0x220 ∧
    (after ((at_ 0x220).setV 3 0x55) 0xF30A).getV 3 = 0x55 := by decide
/-- V-K9. -/
theorem test_ldVxK : (after (((at_ 0x220).setKey 9 true).setKey 4 true) 0xF30A).getV 3 = 4 ∧
    (after (((at_ 0x220).setKey 9 true).setKey 4 true) 0xF30A).pc = 0x222 := by decide
/-- V-T2, V-T6. -/
theorem test_ldDtVx : (after (regs [(0, 3)]) 0xF015).DT = 3 ∧ (after ((regs [(0, 9)]).setDT 5) 0xF015).DT = 9 := by
  decide
/-- V-T3. -/
theorem test_ldStVx : (after (regs [(2, 0x10)]) 0xF218).ST = 0x10 := by decide
/-- V-T5, and the first row of V-T4. -/
theorem test_tick : (State.reset.setDT 255).advanceTimers.DT = 254 ∧ (State.reset.setDT 255).advanceTimers.ST = 0 ∧
    ((State.reset.setDT 3).setST 1).advanceTimers.ST = 0 := by decide

/-! ### Index register and memory -/

/-- V-M1, V-M2. -/
theorem test_ldI : (after State.reset 0xA300).I = 0x300 ∧ (after State.reset 0xAFFF).I = 0xFFF := by decide
/-- V-M4, V-M6. -/
theorem test_addI : (after ((regs [(1, 1)]).setI 0xFFF) 0xF11E).I = 0x1000 ∧
    (after ((regs [(1, 1)]).setI 0xFFF) 0xF11E).getV 15 = 0 ∧
    (after ((regs [(1, 0xFF)]).setI 0xFF80) 0xF11E).I = 0x7F := by decide
/-- V-M8, V-M10, V-M11. -/
theorem test_ldF : (after (regs [(3, 0x0A)]) 0xF329).I = 0x082 ∧ (after (regs [(3, 0x1A)]) 0xF329).I = 0x082 ∧
    (after (regs [(3, 0xFF)]) 0xF329).I = 0x09B := by decide
/-- V-M12. -/
theorem test_ldB : (after ((regs [(0, 254)]).setI 0x300) 0xF033).byteAt 0x300 = 2 ∧
    (after ((regs [(0, 254)]).setI 0x300) 0xF033).byteAt 0x301 = 5 ∧
    (after ((regs [(0, 254)]).setI 0x300) 0xF033).byteAt 0x302 = 4 := by decide
/-- V-M19. -/
theorem test_ldB_fault : (after ((regs [(0, 123)]).setI 0xFFE) 0xF033).fault = some (.address 0x1000) ∧
    (after ((regs [(0, 123)]).setI 0xFFE) 0xF033).byteAt 0xFFE = 0 := by decide
/-- V-M20. -/
theorem test_storeRegs : (after ((regs [(0, 0x11), (1, 0x22)]).setI 0x400) 0xF155).byteAt 0x401 = 0x22 ∧
    (after ((regs [(0, 0x11), (1, 0x22), (2, 0x33)]).setI 0x400) 0xF155).byteAt 0x402 = 0 ∧
    (after ((regs [(0, 0x11), (1, 0x22)]).setI 0x400) 0xF155).I = 0x400 := by decide
/-- V-M22, V-M23. -/
theorem test_storeRegs_fault : (after ((regs [(0, 0x11)]).setI 0xFFF) 0xF155).fault = some (.address 0x1000) ∧
    (after ((regs [(0, 0x11)]).setI 0xFFF) 0xF155).byteAt 0xFFF = 0 ∧
    (after (State.reset.setI 0x1234) 0xF055).fault = some (.address 0x1234) := by decide
/-- V-M26. -/
theorem test_loadRegs :
    (after (State.bytes ((regs [(3, 0x77)]).setI 0x300) 0x300 [2, 5, 4]) 0xF265).getV 2 = 4 ∧
    (after (State.bytes ((regs [(3, 0x77)]).setI 0x300) 0x300 [2, 5, 4]) 0xF265).getV 3 = 0x77 := by decide
/-- V-M25. -/
theorem test_loadRegs_fault : (after ((regs [(4, 9)]).setI 0xFF1) 0xFF65).fault = some (.address 0x1000) ∧
    (after ((regs [(4, 9)]).setI 0xFF1) 0xFF65).getV 4 = 9 := by decide

/-! ### Load, run and the ports -/

/-- V-L2 and V-L5. -/
theorem test_create : (State.loaded [0xAB]).byteAt 0x200 = 0xAB ∧ (State.loaded [0xAB]).byteAt 0x201 = 0 ∧
    (State.loaded [0xAB]).byteAt 0x050 = 0xF0 ∧ (State.loaded [0xAB]).byteAt 0x09F = 0x80 ∧
    (State.loaded [0xAB]).byteAt 0x0A0 = 0 ∧ create [0xAB] = .ok (State.loaded [0xAB]) :=
  ⟨by decide, by decide, by decide, by decide, by decide, rfl⟩
/-- V-L7, V-L8: 0.016 seconds at 600 per second are 9 steps and 0.6 of one. -/
theorem test_budget : budget ⟨600, true⟩ 0 (16 / 1000) = (9, 3 / 5) ∧ budget ⟨600, true⟩ (3 / 5) (16 / 1000) = (10, 1 / 5) ∧
    budget ⟨600, false⟩ (3 / 5) (16 / 1000) = (9, 0) := by decide +kernel
/-- V-K12. -/
theorem test_key_events :
    (schedule [.pressKey 3, .releaseKey 3, .pressKey 3] State.reset).1.isPressed 3 = true ∧
    (schedule [.pressKey 3, .releaseKey 3, .pressKey 3] State.reset).1.isPressed 4 = false := by decide
/-- V-T7. -/
theorem test_display_changed :
    (schedule [.displayChanged, .displayChanged] (State.reset.setDirty true)).2 = [.flag true, .flag false] := by decide
/-- The machine the host sees is this one. -/
theorem test_core : core.reset = State.reset ∧ core.step = step := ⟨rfl, rfl⟩

/-! ### Witnesses: for every obligation with hypotheses, inputs that meet all of them, clause by clause -/

theorem witness_EncodeInvertsDecode : ∃ op i, decodeWord op = .ok i := ⟨0x8AB6, .shr 10 11, rfl⟩

theorem witness_DecodesExactlyTheTableRows :
    ∃ op i, decodeWord op = .ok i ∧ ∃ row ∈ opcodeTable, row.selects op = true :=
  ⟨0xFF65, .loadRegs 15, rfl, tableRow (.loadRegs 0), by decide, rfl⟩

/-- Its four cases, at the last address of each. -/
theorem witness_StepRunsTheDecodedInstruction :
    ((faulted State.reset).fault = some (.decode 0)) ∧
    ((at_ 0xFFF).fault = none ∧ (at_ 0xFFF).pc.toNat = 0xFFF) ∧
    ((at_ 0x1000).fault = none ∧ (at_ 0x1000).pc.toNat > 0xFFF) ∧
    ((at_ 0xFFE).fault = none ∧ (at_ 0xFFE).pc.toNat < 0xFFF ∧
      decodeBytes [(at_ 0xFFE).byteAt 0xFFE, (at_ 0xFFE).byteAt 0xFFF] = .error (.illegal 0)) ∧
    (((at_ 0xFFE).withFetchWord 16 0x1200).fault = none ∧ ((at_ 0xFFE).withFetchWord 16 0x1200).pc.toNat = 0xFFE ∧
      decodeBytes [((at_ 0xFFE).withFetchWord 16 0x1200).byteAt 0xFFE,
        ((at_ 0xFFE).withFetchWord 16 0x1200).byteAt 0xFFF] = .ok (.jp 0x200)) := by decide

theorem witness_ARaisingInstructionChangesOnlyTheLatch :
    ∃ t, exec .ret State.reset = .next t ∧ t.fault ≠ State.reset.fault := ⟨_, rfl, by decide⟩

/-- Each raising instruction on both sides of its limit; every other one completes on any state. -/
theorem witness_FaultsOfEveryInstruction :
    (∃ t, exec .ret (depth State.reset 0) = .next t) ∧ (∃ t, exec .ret (depth State.reset 1) = .next t) ∧
    (∃ t, exec (.call 0) (depth State.reset 16) = .next t) ∧ (∃ t, exec (.call 0) (depth State.reset 15) = .next t) ∧
    (∃ t, exec (.drw 0 0 2) (State.reset.setI 0xFFE) = .next t) ∧
    (∃ t, exec (.drw 0 0 2) (State.reset.setI 0xFFF) = .next t) ∧
    (∃ t, exec (.drw 0 0 0) (State.reset.setI 0xFFFF) = .next t) ∧
    (∃ t, exec (.ldB 0) (State.reset.setI 0xFFD) = .next t) ∧ (∃ t, exec (.ldB 0) (State.reset.setI 0xFFE) = .next t) ∧
    (∃ t, exec (.storeRegs 1) (State.reset.setI 0xFFE) = .next t) ∧
    (∃ t, exec (.storeRegs 1) (State.reset.setI 0xFFF) = .next t) ∧
    (∃ t, exec (.loadRegs 15) (State.reset.setI 0xFF0) = .next t) ∧
    (∃ t, exec (.loadRegs 15) (State.reset.setI 0xFF1) = .next t) ∧
    (∃ t, exec (.skp 0) (regs [(0, 15)]) = .next t) ∧ (∃ t, exec (.skp 0) (regs [(0, 16)]) = .next t) ∧
    (∃ t, exec (.sknp 0) (regs [(0, 15)]) = .next t) ∧ (∃ t, exec (.sknp 0) (regs [(0, 16)]) = .next t) ∧
    (∃ t, exec .cls State.reset = .next t) := by
  refine ⟨⟨_, rfl⟩, ⟨_, rfl⟩, ⟨_, rfl⟩, ⟨_, rfl⟩, ⟨_, rfl⟩, ⟨_, rfl⟩, ⟨_, rfl⟩, ⟨_, rfl⟩, ⟨_, rfl⟩, ⟨_, rfl⟩, ⟨_, rfl⟩,
    ⟨_, rfl⟩, ⟨_, rfl⟩, ⟨_, rfl⟩, ⟨_, rfl⟩, ⟨_, rfl⟩, ⟨_, rfl⟩, ⟨_, rfl⟩⟩

/-- A state at the edge of the invariant: a saved address 0x1000, the highest `pc`, a recorded fault. -/
def edge : State := ({ at_ 0x10FE with stack := Vector.replicate 16 0x1000 }).takeFault (.address 0x10FE)

theorem witness_EveryStepKeepsTheInvariant : edge.Inv ∧ ∃ t, step edge = .next t := by
  refine ⟨⟨rfl, by decide, by decide, ?_, by decide +kernel, by decide +kernel⟩, _, rfl⟩
  intro f hf
  cases hf
  show (0x10FE : Nat) > 0xFFF
  decide

theorem witness_EveryReachableMachineMeetsTheInvariant :
    ∃ s, Reachable s ∧ s.isPressed 3 = true ∧ s.fault = some (.decode 0) :=
  ⟨_, ⟨[0x00], [.pressKey 3, .runSteps 2, .advanceTimers, .run ⟨0, true⟩ 0], _, rfl,
    by
      intro op h
      simp only [List.mem_cons, List.not_mem_nil, or_false] at h
      rcases h with rfl | rfl | rfl | rfl
      · trivial
      · trivial
      · trivial
      · exact ⟨Rat.le_refl, Rat.le_refl⟩, rfl⟩, by decide, by decide⟩

theorem witness_AFaultedMachineStaysFaulted : ∃ s f, State.fault s = some f := ⟨faulted State.reset, _, rfl⟩

/-- Clause by clause: an instruction that writes none of the spaces named, and the last clause's premise is the same. -/
theorem witness_EachSpaceHasItsOwnWriters :
    (∃ t, exec .cls State.reset = .next t ∧ (∀ x, Instr.cls ≠ .ldB x) ∧ (∀ x, Instr.cls ≠ .storeRegs x) ∧
      (∀ nnn, Instr.cls ≠ .call nnn) ∧ Instr.cls ≠ .ret) ∧
    (∃ t, exec (.ldB 0) State.reset = .next t ∧ Instr.ldB 0 ≠ .cls ∧ ∀ x y n, Instr.ldB 0 ≠ .drw x y n) :=
  ⟨⟨_, rfl, nofun, nofun, nofun, nofun⟩, ⟨_, rfl, nofun, nofun⟩⟩

theorem witness_EachSpecialRegisterHasItsOwnWriters :
    (∃ t, exec .cls State.reset = .next t ∧ (∀ nnn, Instr.cls ≠ .ldI nnn) ∧ (∀ x, Instr.cls ≠ .addI x) ∧
      (∀ x, Instr.cls ≠ .ldF x) ∧ (∀ x, Instr.cls ≠ .ldDtVx x) ∧ (∀ x, Instr.cls ≠ .ldStVx x) ∧
      (∀ x kk, Instr.cls ≠ .rnd x kk)) ∧
    (∃ t, exec (.rnd 1 0) State.reset = .next t ∧ ∃ x kk, Instr.rnd 1 0 = .rnd x kk) :=
  ⟨⟨_, rfl, nofun, nofun, nofun, nofun, nofun, nofun⟩, ⟨_, rfl, 1, 0, rfl⟩⟩

theorem witness_DirtyIsSetByCompletedClearsAndDrawsOnly :
    (∃ t, State.reset.fault = none ∧ exec (.drw 0 0 1) State.reset = .next t ∧ t.fault = none) ∧
    (∃ t, exec (.drw 0 0 2) (State.reset.setI 0xFFF) = .next t ∧ t.fault ≠ none) ∧
    (∃ t, exec .ret State.reset = .next t ∧ Instr.ret ≠ .cls ∧ ∀ x y n, Instr.ret ≠ .drw x y n) ∧
    ((∀ n, HostOp.advanceTimers ≠ .runSteps n) ∧ (∀ p e, HostOp.advanceTimers ≠ .run p e) ∧
      (hostOp (State.reset.setDirty true) .advanceTimers).1.dirty = true) :=
  ⟨⟨_, rfl, rfl, rfl⟩, ⟨_, rfl, by decide⟩, ⟨_, rfl, nofun, nofun⟩, nofun, nofun, rfl⟩

/-- A flag writer, a register writer away from VF, and an instruction of the last case. -/
theorem witness_TheFlagHasExactlySixSideWriters :
    (∃ t, State.reset.fault = none ∧ exec (.addReg 15 15) State.reset = .next t ∧ t.fault = none) ∧
    (∃ t, exec (.loadRegs 14) State.reset = .next t ∧ t.fault = none ∧ (14 : Reg) ≠ 15) ∧
    (∃ t, exec (.ldDtVx 15) State.reset = .next t ∧ t.fault = none) :=
  ⟨⟨_, rfl, rfl, rfl⟩, ⟨_, rfl, rfl, by decide⟩, ⟨_, rfl, rfl⟩⟩

theorem witness_SoundDirtyAndRemainderAreNeverRead : ∃ t, step State.reset = .next t := ⟨_, rfl⟩

/-- The addresses on both sides of each limit. -/
theorem witness_MemoryReadsCheckTheirAddresses :
    (0x1000 > 0xFFF) ∧ (0xFFF ≤ 0xFFF) ∧ (0xFFE < 0xFFF) ∧ State.reset.memRead1 0x1000 = .error (.address 0x1000) ∧
    State.reset.memRead1 0xFFF = .ok 0 ∧ State.reset.memRead2 0xFFF = .error (.address 0x1000) ∧
    State.reset.memRead2 0xFFE = .ok 0 := by decide

theorem witness_AMemoryWriteChangesOneCell :
    State.reset.memWrite1 0x1000 1 = .error (.address 0x1000) ∧ ∃ t, State.reset.memWrite1 0xFFF 1 = .ok t :=
  ⟨rfl, _, rfl⟩

/-- The cell at each end of a fetch, at both ends of memory. -/
theorem witness_AStoreIsSeenByTheNextFetch :
    (∃ t, State.reset.memWrite1 0 1 = .ok t ∧ 0 < 0xFFF) ∧ (∃ t, State.reset.memWrite1 0xFFF 1 = .ok t ∧ 1 ≤ 0xFFF) :=
  ⟨⟨_, rfl, by decide⟩, ⟨_, rfl, by decide⟩⟩

theorem witness_JumpSetsPcExactly : (0xFFE#12 : Addr12).toNat < 0xFFF ∧ (0xFFF#12 : Addr12).toNat = 0xFFF ∧
    State.reset.fault = none := by decide

theorem witness_CallSavesTheReturnAddress : (depth State.reset 0).sp.val < 16 ∧ (depth State.reset 15).sp.val < 16 := by
  decide

theorem witness_ReturnTakesTheNewestAddress : (depth State.reset 1).sp.val ≠ 0 ∧ (depth State.reset 16).sp.val ≠ 0 ∧
    (15 : Fin 16).val + 1 = (depth State.reset 16).sp.val := by decide

theorem witness_StackFaultsAtTheTwoEnds : State.fault (depth State.reset 16) = none ∧ State.fault (depth State.reset 0) = none := by
  decide

theorem witness_CallThenReturnComesBack :
    ∃ t u, (depth (at_ 0x208) 15).sp.val < 16 ∧ exec (.call 0x210) (depth (at_ 0x208) 15) = .next t ∧
      samePart t u .stack ∧ u.V ≠ t.V :=
  ⟨_, (after (depth (at_ 0x208) 15) 0x2210).setV 1 5, by decide, rfl, ⟨rfl, rfl⟩, by decide⟩

/-- Zero rows at the top of `I`, and a sprite that ends at the last cell. -/
theorem witness_DrawXorsTheSprite : ((0 : Nibble).toNat = 0) ∧ ((State.reset.setI 0xFF1).I.toNat + (15 : Nibble).toNat - 1 ≤ 0xFFF) := by
  decide

theorem witness_DrawingTwiceRestoresTheScreen :
    ∃ t u, (0 : Reg) ≠ 15 ∧ (1 : Reg) ≠ 15 ∧ oneRow.fault = none ∧ exec (.drw 0 1 1) oneRow = .next t ∧ t.fault = none ∧
      exec (.drw 0 1 1) t = .next u :=
  ⟨_, _, by decide, by decide, rfl, rfl, rfl, rfl⟩

theorem witness_KeySkips : ((regs [(4, 15)]).getV 4).toNat = (15 : Fin 16).val ∧
    ((regs [(4, 0)]).getV 4).toNat = (0 : Fin 16).val := by decide

theorem witness_WaitForKeyTakesTheSmallest : (State.reset.setKey 15 true).isPressed 15 = true ∧
    ∀ j, j < 15 → (State.reset.setKey 15 true).isPressed j = false := by decide

theorem witness_TheWaitRepeatsForEver :
    (State.reset.withFetchWord 16 0xF30A).fault = none ∧ (State.reset.withFetchWord 16 0xF30A).fetch = .ok (.ldVxK 3) ∧
    (∀ k, (State.reset.withFetchWord 16 0xF30A).isPressed k = false) ∧
    ∀ op ∈ [HostOp.releaseKey 3, .advanceTimers, .runSteps 2], ∀ k, op ≠ .pressKey k := by
  refine ⟨rfl, rfl, by decide, ?_⟩
  intro op h k
  simp only [List.mem_cons, List.not_mem_nil, or_false] at h
  rcases h with rfl | rfl | rfl <;> exact nofun

theorem witness_BcdStoresThreeDigits : (State.reset.setI 0xFFD).I.toNat + 2 ≤ 0xFFF := by decide

theorem witness_StoreRegistersToMemory : (State.reset.setI 0xFF0).I.toNat + (15 : Reg).toNat ≤ 0xFFF := by decide

theorem witness_LoadRegistersFromMemory : (State.reset.setI 0xFF0).I.toNat + (15 : Reg).toNat ≤ 0xFFF := by decide

theorem witness_StoreThenLoadRestoresTheRegisters :
    ∃ t u, ((regs [(0, 9)]).setI 0x400).I.toNat + (2 : Reg).toNat ≤ 0xFFF ∧
      exec (.storeRegs 2) ((regs [(0, 9)]).setI 0x400) = .next t ∧ samePart t u .memory ∧ samePart t u .index ∧
      u.getV 0 ≠ t.getV 0 :=
  ⟨_, (((regs [(0, 9)]).setI 0x400).advance.setMem
    (Memory.writeAll [] 0x400 (((regs [(0, 9)]).setI 0x400).lowRegs 2))).setV 0 1, by decide, rfl, fun _ => rfl, rfl, by decide⟩

/-- No bytes, one too many, one, and as many as fit. -/
theorem witness_CreateAcceptsEveryImageThatFits :
    ([] : List Byte).length = 0 ∧ (List.replicate 3585 (0 : Byte)).length > 3584 ∧ (1 ≤ [(0 : Byte)].length) ∧
    [(0 : Byte)].length ≤ 3584 ∧ [(0 : Byte)].length < 3584 ∧
    (1 ≤ (List.replicate 3584 (0 : Byte)).length ∧ (List.replicate 3584 (0 : Byte)).length ≤ 3584) ∧
    decodeBytes [0, 0] = .error (.illegal 0) := by
  simp only [List.length_replicate]
  decide

theorem witness_CreateMakesTheResetState :
    ∃ s, create [0x61, 0x05, 0x00] = .ok s ∧ (0x050 ≤ 0x09F ∧ 0x09F < 0x200) ∧ 0x200 + 3 ≤ 0x203 ∧
      (∃ u, create [0] = .ok u ∧ ∀ b ∈ [(0 : Byte)], b = 0) :=
  ⟨_, rfl, by decide, by decide, _, rfl, by decide⟩

theorem witness_TheRemainderLosesNoInstruction :
    State.reset.fault = none ∧
    ((⟨600, true⟩ : Config.Pacing).carry = true ∧ (0 : Rat) ≤ 600 ∧ (∀ e ∈ [(16 / 1000 : Rat), 0], 0 ≤ e) ∧
      (0 : Rat) ≤ 0 ∧ (0 : Rat) < 1) ∧
    ((⟨600, false⟩ : Config.Pacing).carry = false) ∧ (∃ t, step State.reset = .next t) :=
  ⟨rfl, ⟨rfl, by decide +kernel, by decide +kernel, by decide +kernel, by decide +kernel⟩, rfl, _, rfl⟩

theorem witness_AFaultEndsTheRun :
    ∃ t, runSteps 1 State.reset = .next t ∧ t.fault = some (.decode 0) ∧ 1 ≤ 10 := ⟨_, rfl, rfl, by decide⟩

theorem witness_KeyEventsSetOneLatch : 0 < 16 ∧ 15 < 16 := by decide

theorem witness_InvalidKeyEventsChangeNothing : 16 > 15 := by decide

/-- A host operation that is not a run, and one that is no tick either. -/
theorem witness_TheHostReachesOnlyItsPorts :
    (∀ n, HostOp.pressKey 15 ≠ .runSteps n) ∧ (∀ p e, HostOp.pressKey 15 ≠ .run p e) ∧
    HostOp.pressKey 15 ≠ .advanceTimers := ⟨nofun, nofun, nofun⟩

theorem witness_registers_apart_from_the_flag : (14 : Reg) ≠ 15 := by decide

theorem witness_RandomByteIsMasked : (0x0F : Byte) &&& ~~~(0x0F : Byte) = 0 := by decide

end Sys2Proof.Tests
end

section
/-! SUPPORT. What `exec` can do, said once: an instruction raises and leaves its fault in the latch, or it completes as
`Completes` says. The frames, the flag and the invariant below are read off this one case split. -/

namespace Sys2Proof.Machine

/-! ### Two compound updates in terms of the named ones -/

@[simp] theorem State.setResultAndFlag_eq (s : State) (x : Reg) (r : Byte × Bool) :
    s.setResultAndFlag x r = (s.setV x r.1).setV 15 (flagByte r.2) := rfl

@[simp] theorem State.drawSprite_eq (s : State) (x y : Reg) (b : List Byte) :
    s.drawSprite x y b =
      ((s.setFb (drawRows (originX (s.getV x)) (originY (s.getV y)) b (s.fb, false)).1).setV 15
        (flagByte (drawRows (originX (s.getV x)) (originY (s.getV y)) b (s.fb, false)).2)).setDirty true := rfl

theorem flagByte_zero_or_one (f : Bool) : flagByte f = 0 ∨ flagByte f = 1 := by
  cases f
  · exact .inl rfl
  · exact .inr rfl

/-! ### The inversion of `exec` -/

/-- `i`, run on `s`, completes and leaves `t`: the equations of Laws/Exec.lean as one relation, each instruction that
can raise with the guard under which it does not. -/
inductive Completes (s : State) : Instr → State → Prop
  | cls : Completes s .cls ((s.advance.setFb Screen.blank).setDirty true)
  | ret (h : s.sp.val ≠ 0) :
      Completes s .ret { s with pc := s.stack[s.sp.val - 1]'(by omega), sp := ⟨s.sp.val - 1, by omega⟩ }
  | jp (nnn : Addr12) : Completes s (.jp nnn) (s.advance.setPc (zext12 nnn))
  | call (nnn : Addr12) (h : s.sp.val < 16) :
      Completes s (.call nnn)
        { s with pc := zext12 nnn, stack := s.stack.set s.sp.val (s.pc + 2) h, sp := ⟨s.sp.val + 1, by omega⟩ }
  | seImm (x : Reg) (kk : Byte) : Completes s (.seImm x kk) (s.advance.skipIf (s.getV x == kk))
  | sneImm (x : Reg) (kk : Byte) : Completes s (.sneImm x kk) (s.advance.skipIf (s.getV x != kk))
  | seReg (x y : Reg) : Completes s (.seReg x y) (s.advance.skipIf (s.getV x == s.getV y))
  | ldImm (x : Reg) (kk : Byte) : Completes s (.ldImm x kk) (s.advance.setV x kk)
  | addImm (x : Reg) (kk : Byte) : Completes s (.addImm x kk) (s.advance.setV x (s.getV x + kk))
  | ldReg (x y : Reg) : Completes s (.ldReg x y) (s.advance.setV x (s.getV y))
  | orReg (x y : Reg) : Completes s (.orReg x y) (s.advance.setV x (s.getV x ||| s.getV y))
  | andReg (x y : Reg) : Completes s (.andReg x y) (s.advance.setV x (s.getV x &&& s.getV y))
  | xorReg (x y : Reg) : Completes s (.xorReg x y) (s.advance.setV x (s.getV x ^^^ s.getV y))
  | addReg (x y : Reg) :
      Completes s (.addReg x y) (s.advance.setResultAndFlag x (addWithCarry (s.getV x) (s.getV y)))
  | subReg (x y : Reg) :
      Completes s (.subReg x y) (s.advance.setResultAndFlag x (subNoBorrow (s.getV x) (s.getV y)))
  | shr (x y : Reg) : Completes s (.shr x y) (s.advance.setResultAndFlag x (shiftRightOne (s.getV x)))
  | subnReg (x y : Reg) :
      Completes s (.subnReg x y) (s.advance.setResultAndFlag x (subNoBorrow (s.getV y) (s.getV x)))
  | shl (x y : Reg) : Completes s (.shl x y) (s.advance.setResultAndFlag x (shiftLeftOne (s.getV x)))
  | sneReg (x y : Reg) : Completes s (.sneReg x y) (s.advance.skipIf (s.getV x != s.getV y))
  | ldI (nnn : Addr12) : Completes s (.ldI nnn) (s.advance.setI (zext12 nnn))
  | jpV0 (nnn : Addr12) : Completes s (.jpV0 nnn) (s.advance.setPc (zext12 nnn + zext8 (s.getV 0)))
  | rnd (x : Reg) (kk : Byte) :
      Completes s (.rnd x kk) (s.advance.countDraw.setV x (Config.randomByte s.draws &&& kk))
  | drw (x y : Reg) (n : Nibble) (h : n.toNat = 0 ∨ s.I.toNat + (n.toNat - 1) ≤ 0xFFF) :
      Completes s (.drw x y n) (s.advance.drawSprite x y (s.spriteBytes n))
  | skp (x : Reg) (h : (s.getV x).toNat ≤ 15) :
      Completes s (.skp x) (s.advance.skipIf (s.isPressed (lowNibbleKey (s.getV x))))
  | sknp (x : Reg) (h : (s.getV x).toNat ≤ 15) :
      Completes s (.sknp x) (s.advance.skipIf (!s.isPressed (lowNibbleKey (s.getV x))))
  | ldVxDt (x : Reg) : Completes s (.ldVxDt x) (s.advance.setV x s.DT)
  | ldVxK (x : Reg) (k : Fin 16) (h : s.lowestKey = some k) :
      Completes s (.ldVxK x) (s.advance.setV x (BitVec.ofNat 8 k.val))
  | ldVxK_waits (x : Reg) (h : s.lowestKey = none) : Completes s (.ldVxK x) s
  | ldDtVx (x : Reg) : Completes s (.ldDtVx x) (s.advance.setDT (s.getV x))
  | ldStVx (x : Reg) : Completes s (.ldStVx x) (s.advance.setST (s.getV x))
  | addI (x : Reg) : Completes s (.addI x) (s.advance.setI (s.I + zext8 (s.getV x)))
  | ldF (x : Reg) : Completes s (.ldF x) (s.advance.setI (fontAddress (s.getV x)))
  | ldB (x : Reg) (h : s.I.toNat + 2 ≤ 0xFFF) :
      Completes s (.ldB x) (s.advance.setMem (Memory.writeAll s.mem s.I.toNat (bcdDigits (s.getV x))))
  | storeRegs (x : Reg) (h : s.I.toNat + x.toNat ≤ 0xFFF) :
      Completes s (.storeRegs x) (s.advance.setMem (Memory.writeAll s.mem s.I.toNat (s.lowRegs x)))
  | loadRegs (x : Reg) (h : s.I.toNat + x.toNat ≤ 0xFFF) :
      Completes s (.loadRegs x)
        (s.advance.setAllV (setManyV s.V 0 ((List.range (x.toNat + 1)).map fun k => s.byteAt (s.I.toNat + k))))

/-- An address fault names an address outside memory (60_exceptions.md R202). -/
theorem Fault.sound_address_max (a : Nat) : (Fault.address (max a 0x1000)).sound := by
  show max a 0x1000 > 0xFFF
  omega

/-- A key fault names an index a byte holds and the keypad lacks (R208). -/
theorem Fault.sound_invalidKey {v : Byte} (h : v.toNat > 15) : (Fault.invalidKey v.toNat).sound := ⟨h, v.isLt⟩

variable {s t : State} {i : Instr}

/-- What an instruction can do: take a fault that can be, or complete. -/
theorem exec_cases (h : exec i s = .next t) : (∃ f : Fault, f.sound ∧ t = s.takeFault f) ∨ Completes s i t := by
  cases i with
  | ret =>
    by_cases hd : s.sp.val = 0
    · rw [exec_ret_raises s hd] at h; cases h
      exact .inl ⟨.stack .underflow, trivial, rfl⟩
    · rw [exec_ret s hd] at h; cases h
      exact .inr (.ret hd)
  | call nnn =>
    by_cases hd : s.sp.val < 16
    · rw [exec_call s nnn hd] at h; cases h
      exact .inr (.call nnn hd)
    · rw [exec_call_raises s nnn (by omega)] at h; cases h
      exact .inl ⟨.stack .overflow, trivial, rfl⟩
  | drw x y n =>
    by_cases hr : n.toNat = 0 ∨ s.I.toNat + (n.toNat - 1) ≤ 0xFFF
    · rw [exec_drw s x y n hr] at h; cases h
      exact .inr (.drw x y n hr)
    · rw [exec_drw_raises s x y n (by omega) (by omega)] at h; cases h
      exact .inl ⟨_, Fault.sound_address_max _, rfl⟩
  | skp x =>
    by_cases hk : (s.getV x).toNat ≤ 15
    · rw [exec_skp s x hk] at h; cases h
      exact .inr (.skp x hk)
    · rw [exec_skp_raises s x (by omega)] at h; cases h
      exact .inl ⟨_, Fault.sound_invalidKey (by omega), rfl⟩
  | sknp x =>
    by_cases hk : (s.getV x).toNat ≤ 15
    · rw [exec_sknp s x hk] at h; cases h
      exact .inr (.sknp x hk)
    · rw [exec_sknp_raises s x (by omega)] at h; cases h
      exact .inl ⟨_, Fault.sound_invalidKey (by omega), rfl⟩
  | ldVxK x =>
    cases hk : s.lowestKey with
    | none =>
      rw [exec_ldVxK_waits s x hk] at h; cases h
      exact .inr (.ldVxK_waits x hk)
    | some k =>
      rw [exec_ldVxK s x k hk] at h; cases h
      exact .inr (.ldVxK x k hk)
  | ldB x =>
    by_cases hr : s.I.toNat + 2 ≤ 0xFFF
    · rw [exec_ldB s x hr] at h; cases h
      exact .inr (.ldB x hr)
    · rw [exec_ldB_raises s x (by omega)] at h; cases h
      exact .inl ⟨_, Fault.sound_address_max _, rfl⟩
  | storeRegs x =>
    by_cases hr : s.I.toNat + x.toNat ≤ 0xFFF
    · rw [exec_storeRegs s x hr] at h; cases h
      exact .inr (.storeRegs x hr)
    · rw [exec_storeRegs_raises s x (by omega)] at h; cases h
      exact .inl ⟨_, Fault.sound_address_max _, rfl⟩
  | loadRegs x =>
    by_cases hr : s.I.toNat + x.toNat ≤ 0xFFF
    · rw [exec_loadRegs s x hr] at h; cases h
      exact .inr (.loadRegs x hr)
    · rw [exec_loadRegs_raises s x (by omega)] at h; cases h
      exact .inl ⟨_, Fault.sound_address_max _, rfl⟩
  | _ =>
    cases h
    exact .inr (by constructor)

/-! ### The invariant, field by field -/

/-- A completed instruction leaves the latch alone. -/
theorem Completes.fault_eq (hc : Completes s i t) : t.fault = s.fault := by
  cases hc <;> simp [State.skipIf_eq]

/-- A completed instruction leaves the remainder of the run port alone. -/
theorem Completes.remainder_eq (hc : Completes s i t) : t.remainder = s.remainder := by
  cases hc <;> simp [State.skipIf_eq]

/-- The two instructions that store keep the canonical form; the others leave memory alone. -/
theorem Completes.memory_wf (hc : Completes s i t) (hm : Memory.wf s.mem = true) : Memory.wf t.mem = true := by
  cases hc with
  | ldB x h => exact Memory.wf_writeAll _ (by simp only [bcdDigits_length, Config.memTop]; omega) hm
  | storeRegs x h => exact Memory.wf_writeAll _ (by simp only [State.lowRegs_length, Config.memTop]; omega) hm
  | _ => simpa [State.skipIf_eq] using hm

/-- The address after an instruction that was fetched is at most the end of memory. -/
theorem State.advance_pc_le (hpc : s.pc.toNat < 0xFFF) : s.advance.pc.toNat ≤ 0x1000 := by
  rw [State.advance_pc]
  bv_omega

/-- 2nnn saves the address after itself; every other cell of the stack is an old one. -/
theorem Completes.stack_le (hc : Completes s i t) (hpc : s.pc.toNat < 0xFFF)
    (hs : ∀ j : Fin 16, s.stack[j].toNat ≤ 0x1000) (j : Fin 16) : t.stack[j].toNat ≤ 0x1000 := by
  cases hc with
  | call nnn h =>
    simp only [Fin.getElem_fin, Vector.getElem_set]
    split
    · exact State.advance_pc_le hpc
    · exact hs j
  | _ => simpa [State.skipIf_eq] using hs j

/-- A skip from an instruction that was fetched ends at most four past it. -/
theorem State.pc_skipIf_advance_le (c : Bool) (hpc : s.pc.toNat < 0xFFF) :
    (s.advance.skipIf c).pc.toNat ≤ 0x10FE := by
  have := State.advance_pc_le hpc
  cases c
  · show s.advance.pc.toNat ≤ 0x10FE
    omega
  · show (s.advance.pc + 2).toNat ≤ 0x10FE
    bv_omega

/-- A completed instruction that was fetched leaves `pc` at most 0x10FE, the farthest target of Bnnn. -/
theorem Completes.pc_le (hc : Completes s i t) (hpc : s.pc.toNat < 0xFFF)
    (hs : ∀ j : Fin 16, s.stack[j].toNat ≤ 0x1000) : t.pc.toNat ≤ 0x10FE := by
  cases hc with
  | ret h =>
    exact (hs ⟨s.sp.val - 1, by omega⟩).trans (by decide)
  | jp nnn =>
    have := nnn.isLt
    rw [State.setPc_pc, zext12_toNat]
    omega
  | call nnn h =>
    have := nnn.isLt
    rw [zext12_toNat]
    omega
  | jpV0 nnn =>
    have := nnn.isLt
    have := (s.getV 0).isLt
    rw [State.setPc_pc, BitVec.toNat_add, zext12_toNat, zext8_toNat]
    omega
  | ldVxK_waits x h => omega
  | seImm | sneImm | seReg | sneReg | skp | sknp => exact State.pc_skipIf_advance_le _ hpc
  | _ => exact (State.advance_pc_le hpc).trans (by decide)

/-- The invariant through a completed instruction that was fetched. -/
theorem Completes.keeps_inv (hc : Completes s i t) (hpc : s.pc.toNat < 0xFFF) (hs : s.Inv) : t.Inv where
  mem := hc.memory_wf hs.mem
  pc := hc.pc_le hpc hs.stack
  stack := hc.stack_le hpc hs.stack
  fault := hc.fault_eq ▸ hs.fault
  remainder := hc.remainder_eq ▸ hs.remainder

/-- Taking a fault that can be keeps the invariant. -/
theorem State.Inv.takeFault {f : Fault} (hs : s.Inv) (hf : f.sound) : (s.takeFault f).Inv where
  mem := hs.mem
  pc := hs.pc
  stack := hs.stack
  fault := by rintro g ⟨⟩; exact hf
  remainder := hs.remainder

/-! ### What a fetch can do -/

/-- A fetch reads an opcode whose decoding is its answer, or raises with an address outside memory. -/
theorem State.fetch_cases (s : State) :
    (0xFFF ≤ s.pc.toNat ∧ s.fetch = .error (.address (max s.pc.toNat 0x1000))) ∨
    (s.pc.toNat < 0xFFF ∧ ∃ op,
      (∃ i, decodeWord op = .ok i ∧ s.fetch = .ok i) ∨
      (∃ e, decodeWord op = .error e ∧ s.fetch = .error (.decode op))) := by
  by_cases hpc : 0xFFF ≤ s.pc.toNat
  · exact .inl ⟨hpc, by rw [State.fetch, State.memRead2_error s hpc]⟩
  · refine .inr ⟨by omega, joinBytes (s.byteAt s.pc.toNat) (s.byteAt (s.pc.toNat + 1)), ?_⟩
    rw [State.fetch, State.memRead2_ok s (by omega)]
    cases hd : decodeWord (joinBytes (s.byteAt s.pc.toNat) (s.byteAt (s.pc.toNat + 1))) with
    | ok i => exact .inl ⟨i, rfl, by simp [hd]⟩
    | error e => exact .inr ⟨e, rfl, by simp [hd]⟩

/-- An instruction is fetched only where both its bytes are in memory. -/
theorem State.fetch_ok_pc (h : s.fetch = .ok i) : s.pc.toNat < 0xFFF := by
  obtain ⟨-, he⟩ | ⟨hpc, -⟩ := s.fetch_cases
  · rw [he] at h; cases h
  · exact hpc

/-- The faults of a fetch can be: an address outside memory, an opcode that is no instruction. -/
theorem State.fetch_error_sound {f : Fault} (h : s.fetch = .error f) : f.sound := by
  obtain ⟨-, he⟩ | ⟨-, op, ⟨i, -, hi⟩ | ⟨e, hd, he⟩⟩ := s.fetch_cases
  · rw [he] at h; cases h
    exact Fault.sound_address_max _
  · rw [hi] at h; cases h
  · rw [he] at h; cases h
    intro i hi
    rw [hd] at hi; cases hi

/-- Settles O11: a step does nothing, takes a fault that can be, or completes an instruction it fetched; each keeps the
invariant. -/
theorem everyStepKeepsTheInvariant : Obligations.EveryStepKeepsTheInvariant := by
  intro s t hs h
  obtain ⟨f, -, rfl⟩ | ⟨-, f, hf, rfl⟩ | ⟨-, i, hi, he⟩ := step_cases h
  · exact hs
  · exact hs.takeFault (State.fetch_error_sound hf)
  · obtain ⟨f, hf, rfl⟩ | hc := exec_cases he
    · exact hs.takeFault hf
    · exact hc.keeps_inv (State.fetch_ok_pc hi) hs

/-- Settles O10: reset lists no memory cell, and its other fields are within their bounds. -/
theorem resetMeetsTheInvariant : Obligations.ResetMeetsTheInvariant where
  mem := reset_memory_wf
  pc := by decide
  stack := by decide
  fault := nofun
  remainder := ⟨le_refl 0, zero_lt_one⟩

/-! ### The special registers and their writers -/

/-- `I` keeps its value but under Annn, Fx1E and Fx29. -/
theorem exec_index_eq (h : exec i s = .next t) (hld : ∀ nnn, i ≠ .ldI nnn) (hadd : ∀ x, i ≠ .addI x)
    (hf : ∀ x, i ≠ .ldF x) : t.I = s.I := by
  obtain ⟨f, -, rfl⟩ | hc := exec_cases h
  · rfl
  · cases hc with
    | ldI nnn => exact absurd rfl (hld nnn)
    | addI x => exact absurd rfl (hadd x)
    | ldF x => exact absurd rfl (hf x)
    | _ => simp [State.skipIf_eq]

/-- `DT` keeps its value but under Fx15. -/
theorem exec_DT_eq (h : exec i s = .next t) (hdt : ∀ x, i ≠ .ldDtVx x) : t.DT = s.DT := by
  obtain ⟨f, -, rfl⟩ | hc := exec_cases h
  · rfl
  · cases hc with
    | ldDtVx x => exact absurd rfl (hdt x)
    | _ => simp [State.skipIf_eq]

/-- `ST` keeps its value but under Fx18. -/
theorem exec_ST_eq (h : exec i s = .next t) (hst : ∀ x, i ≠ .ldStVx x) : t.ST = s.ST := by
  obtain ⟨f, -, rfl⟩ | hc := exec_cases h
  · rfl
  · cases hc with
    | ldStVx x => exact absurd rfl (hst x)
    | _ => simp [State.skipIf_eq]

/-- No byte is drawn but by Cxkk. -/
theorem exec_draws_eq (h : exec i s = .next t) (hrnd : ∀ x kk, i ≠ .rnd x kk) : t.draws = s.draws := by
  obtain ⟨f, -, rfl⟩ | hc := exec_cases h
  · rfl
  · cases hc with
    | rnd x kk => exact absurd rfl (hrnd x kk)
    | _ => simp [State.skipIf_eq]

/-- Settles O15, register by register; Cxkk never raises, so it always counts its draw. -/
theorem eachSpecialRegisterHasItsOwnWriters : Obligations.EachSpecialRegisterHasItsOwnWriters := by
  intro i s t h
  refine ⟨exec_index_eq h, exec_DT_eq h, exec_ST_eq h, exec_draws_eq h, ?_⟩
  rintro x kk rfl
  rw [exec_rnd] at h; cases h
  rfl

/-! ### The flag -/

/-- Loading `V[0]` to `V[x]` with `x` below 15 leaves the flag register alone. -/
theorem State.loadLow_flag (s : State) {x : Reg} (hx : x ≠ 15) (g : Nat → Byte) :
    (s.setAllV (setManyV s.V 0 ((List.range (x.toNat + 1)).map g))).getV 15 = s.getV 15 := by
  have hlt : x.toNat < 15 := by bv_omega
  rw [State.setManyV_getV, if_neg]
  rw [List.length_map, List.length_range, show (15 : Reg).toNat = 15 from rfl]
  omega

/-- Settles O17: by the case split on what a completed instruction does; a step that raised leaves a latch set and is
excluded. -/
theorem theFlagHasExactlySixSideWriters : Obligations.TheFlagHasExactlySixSideWriters := by
  intro i s t hs h ht
  obtain ⟨f, -, rfl⟩ | hc := exec_cases h
  · cases ht
  · cases hc with
    | addReg | subReg | shr | subnReg | shl | drw => simpa using flagByte_zero_or_one _
    | ldImm x | addImm x | ldReg x | orReg x | andReg x | xorReg x | rnd x | ldVxDt x | ldVxK x =>
      intro hx
      rw [State.setV_getV, if_neg (Ne.symm hx)]
      rfl
    | ldVxK_waits x => exact fun _ => rfl
    | loadRegs x => exact fun hx => s.advance.loadLow_flag hx _
    | _ => simp [State.skipIf_eq, State.getV]

/-! ### What no instruction reads -/

theorem step_faulted {f : Fault} (hf : s.fault = some f) : step s = .next s := by simp [step, hf]

theorem step_fetch_error {f : Fault} (hf : s.fault = none) (he : s.fetch = .error f) :
    step s = .next (s.takeFault f) := by simp [step, hf, he]

theorem step_fetch_ok (hf : s.fault = none) (hi : s.fetch = .ok i) : step s = exec i s := by simp [step, hf, hi]

/-- `s` with `ST`, `dirty` and the remainder replaced. -/
def State.withUnread (s : State) (b : Byte) (d : Bool) (q : Rat) : State := ((s.setST b).setDirty d).setRemainder q

theorem onlyChanges_withUnread (s : State) (b : Byte) (d : Bool) (q : Rat) :
    onlyChanges [.sound, .dirty, .remainder] s (s.withUnread b d q) := by
  intro p hp
  cases p <;> simp_all [samePart, State.withUnread]

/-- An execute phase whose body only carries the three replaced fields along, or overwrites them, cannot tell. -/
theorem execute_withUnread {body : State → Except Fault State} {b b' : Byte} {d d' : Bool} {q q' : Rat}
    (h : execute s body = .next t)
    (hb : body (s.withUnread b d q).advance = (body s.advance).map (·.withUnread b' d' q')) :
    ∃ t', execute (s.withUnread b d q) body = .next t' ∧ onlyChanges [.sound, .dirty, .remainder] t t' := by
  obtain ht | ⟨f, hf, rfl⟩ := execute_cases h
  · exact ⟨t.withUnread b' d' q', execute_ok (by rw [hb, ht]; rfl), onlyChanges_withUnread _ _ _ _⟩
  · exact ⟨(s.withUnread b d q).takeFault f, execute_error (by rw [hb, hf]; rfl), onlyChanges_withUnread _ _ _ _⟩

/-- Two continuations of one check that answer alike up to `r` do so after the check too. -/
theorem except_map_eq_of_comp {ε α β γ : Type} (e : Except ε α) {f : α → γ} {g : α → β} {r : β → γ}
    (hf : ∀ a, f a = r (g a)) : e.map f = (e.map g).map r := by
  cases e with
  | error => rfl
  | ok a => exact congrArg Except.ok (hf a)

theorem State.skipIf_withUnread (s : State) (c : Bool) (b : Byte) (d : Bool) (q : Rat) :
    (s.withUnread b d q).skipIf c = (s.skipIf c).withUnread b d q := by
  cases c <;> rfl

/-- No instruction reads the three fields: run with them replaced it answers the same but for them. RET, CALL and Fx0A
branch on the stack and the keys, which are the same in both runs. -/
theorem exec_withUnread (h : exec i s = .next t) (b : Byte) (d : Bool) (q : Rat) :
    ∃ t', exec i (s.withUnread b d q) = .next t' ∧ onlyChanges [.sound, .dirty, .remainder] t t' := by
  cases i with
  | ret =>
    by_cases hd : s.sp.val = 0
    · rw [exec_ret_raises s hd] at h; cases h
      exact ⟨_, exec_ret_raises (s.withUnread b d q) hd, onlyChanges_withUnread _ b d q⟩
    · rw [exec_ret s hd] at h; cases h
      exact ⟨_, exec_ret (s.withUnread b d q) hd, onlyChanges_withUnread _ b d q⟩
  | call nnn =>
    by_cases hd : s.sp.val < 16
    · rw [exec_call s nnn hd] at h; cases h
      exact ⟨_, exec_call (s.withUnread b d q) nnn hd, onlyChanges_withUnread _ b d q⟩
    · have hd : s.sp.val = 16 := by omega
      rw [exec_call_raises s nnn hd] at h; cases h
      exact ⟨_, exec_call_raises (s.withUnread b d q) nnn hd, onlyChanges_withUnread _ b d q⟩
  | ldVxK x =>
    cases hk : s.lowestKey with
    | none =>
      rw [exec_ldVxK_waits s x hk] at h; cases h
      exact ⟨_, exec_ldVxK_waits (s.withUnread b d q) x hk, onlyChanges_withUnread _ b d q⟩
    | some k =>
      rw [exec_ldVxK s x k hk] at h; cases h
      exact ⟨_, exec_ldVxK (s.withUnread b d q) x k hk, onlyChanges_withUnread _ b d q⟩
  | skp | sknp =>
    unfold exec at h ⊢
    exact execute_withUnread h (except_map_eq_of_comp _ fun _ => State.skipIf_withUnread s.advance _ b d q)
  | drw | ldB | storeRegs | loadRegs =>
    unfold exec at h ⊢
    exact execute_withUnread h (except_map_eq_of_comp _ fun _ => rfl)
  | seImm | sneImm | seReg | sneReg =>
    unfold exec at h ⊢
    exact execute_withUnread h (congrArg Except.ok (State.skipIf_withUnread s.advance _ b d q))
  | _ =>
    unfold exec at h ⊢
    exact execute_withUnread h rfl

/-- Settles O18: the latch and the fetch are the same in both runs, and so is the instruction's answer but for the three
fields. -/
theorem soundDirtyAndRemainderAreNeverRead : Obligations.SoundDirtyAndRemainderAreNeverRead := by
  intro s t b d q h
  change ∃ t', step (s.withUnread b d q) = .next t' ∧ _
  obtain ⟨f, hf, rfl⟩ | ⟨hf, f, he, rfl⟩ | ⟨hf, i, hi, hx⟩ := step_cases h
  · exact ⟨_, step_faulted hf, onlyChanges_withUnread _ b d q⟩
  · exact ⟨_, step_fetch_error hf he, onlyChanges_withUnread _ b d q⟩
  · rw [step_fetch_ok (s := s.withUnread b d q) hf hi]
    exact exec_withUnread hx b d q

end Sys2Proof.Machine
end

section
/-! SUPPORT. The memory operations (20_memory.md R57 to R66) by case of their address, and which instructions write
memory, the stack, the screen, the keys and the remainder. -/

namespace Sys2Proof.Machine

/-! ### Reads and writes of one cell -/

/-- The lower address holds the upper half of the opcode (R58). -/
theorem joinBytes_toNat (hi lo : Byte) : (joinBytes hi lo).toNat = 256 * hi.toNat + lo.toNat := by
  rw [joinBytes, BitVec.toNat_append, ← Nat.shiftLeft_add_eq_or_of_lt lo.isLt, Nat.shiftLeft_eq, Nat.mul_comm]

theorem State.memRead1_ok (s : State) {a : Nat} (h : a ≤ 0xFFF) : s.memRead1 a = .ok (s.byteAt a) :=
  if_neg (Nat.not_lt.2 h)

theorem State.memRead1_error (s : State) {a : Nat} (h : a > 0xFFF) : s.memRead1 a = .error (.address a) := if_pos h

theorem State.memWrite1_ok (s : State) {a : Nat} (v : Byte) (h : a ≤ 0xFFF) :
    s.memWrite1 a v = .ok (s.setMem (Memory.write s.mem a v)) := if_neg (Nat.not_lt.2 h)

theorem State.memWrite1_error (s : State) {a : Nat} (v : Byte) (h : a > 0xFFF) :
    s.memWrite1 a v = .error (.address a) := if_pos h

/-- A write that completes was inside memory and replaced the one cell (R59). -/
theorem State.memWrite1_cases {s t : State} {a : Nat} {v : Byte} (h : s.memWrite1 a v = .ok t) :
    a ≤ 0xFFF ∧ t = s.setMem (Memory.write s.mem a v) := by
  by_cases ha : a ≤ 0xFFF
  · rw [State.memWrite1_ok s v ha] at h; cases h
    exact ⟨ha, rfl⟩
  · rw [State.memWrite1_error s v (by omega)] at h; cases h

/-- The cells after one of them is written. -/
theorem State.write_byteAt (s : State) (a b : Nat) (v : Byte) :
    (s.setMem (Memory.write s.mem a v)).byteAt b = if b = a then v else s.byteAt b := by
  rw [State.setMem_byteAt, Memory.read_write]
  rfl

/-- Replacing memory leaves every other piece of the state alone. -/
theorem onlyChanges_setMem (s : State) (m : Memory) : onlyChanges [.memory] s (s.setMem m) := by
  intro p hp
  cases p with
  | memory => exact absurd (List.mem_singleton.2 rfl) hp
  | stack => exact ⟨rfl, rfl⟩
  | regs | keys => exact fun _ => rfl
  | screen => exact fun _ _ => rfl
  | _ => rfl

/-- Settles O19: the one-byte read checks its only address; the two-byte read raises from 0xFFF up, where the first
address outside is the larger of `a` and 0x1000. -/
theorem memoryReadsCheckTheirAddresses : Obligations.MemoryReadsCheckTheirAddresses := by
  intro s a
  refine ⟨fun ha => ⟨s.memRead1_error ha, ?_⟩, s.memRead1_ok, ?_,
    fun ha => ⟨_, s.memRead2_ok ha, joinBytes_toNat _ _⟩⟩
  · rw [s.memRead2_error (by omega), Nat.max_eq_left ha]
  · rintro rfl
    exact s.memRead2_error (le_refl _)

/-- Settles O20, by the read after a write and the frame of a replaced memory. -/
theorem aMemoryWriteChangesOneCell : Obligations.AMemoryWriteChangesOneCell := by
  intro s a v
  refine ⟨s.memWrite1_error v, fun ha => ⟨_, s.memWrite1_ok v ha, ?_, ?_, onlyChanges_setMem s _⟩⟩
  · rw [State.write_byteAt, if_pos rfl]
  · intro b hb
    rw [State.write_byteAt, if_neg (by omega)]

/-- Settles O21: of the two cells a fetch reads, the one stored holds the new byte and its neighbour the old one. -/
theorem aStoreIsSeenByTheNextFetch : Obligations.AStoreIsSeenByTheNextFetch := by
  intro s t a v h
  obtain ⟨ha, rfl⟩ := State.memWrite1_cases h
  constructor
  · intro hlt
    rw [State.memRead2_ok _ hlt, State.write_byteAt, if_pos rfl, State.write_byteAt, if_neg (by omega)]
  · intro h1
    have hnext : a - 1 + 1 = a := by omega
    rw [State.memRead2_ok _ (by omega), hnext, State.write_byteAt, if_neg (by omega), State.write_byteAt, if_pos rfl]

/-! ### The address spaces and their writers -/

variable {s t : State} {i : Instr}

/-- Memory keeps its content but under Fx33 and Fx55. -/
theorem exec_mem_eq (h : exec i s = .next t) (hb : ∀ x, i ≠ .ldB x) (hst : ∀ x, i ≠ .storeRegs x) :
    t.mem = s.mem := by
  obtain ⟨f, -, rfl⟩ | hc := exec_cases h
  · rfl
  · cases hc with
    | ldB x => exact absurd rfl (hb x)
    | storeRegs x => exact absurd rfl (hst x)
    | _ => simp [State.skipIf_eq]

/-- The stack keeps its depth and its cells but under 2nnn and 00EE. -/
theorem exec_stack_eq (h : exec i s = .next t) (hcall : ∀ nnn, i ≠ .call nnn) (hret : i ≠ .ret) :
    t.sp = s.sp ∧ t.stack = s.stack := by
  obtain ⟨f, -, rfl⟩ | hc := exec_cases h
  · exact ⟨rfl, rfl⟩
  · cases hc with
    | call nnn => exact absurd rfl (hcall nnn)
    | ret => exact absurd rfl hret
    | _ => simp [State.skipIf_eq]

/-- The screen keeps its pixels but under 00E0 and Dxyn. -/
theorem exec_fb_eq (h : exec i s = .next t) (hcls : i ≠ .cls) (hdrw : ∀ x y n, i ≠ .drw x y n) : t.fb = s.fb := by
  obtain ⟨f, -, rfl⟩ | hc := exec_cases h
  · rfl
  · cases hc with
    | cls => exact absurd rfl hcls
    | drw x y n => exact absurd rfl (hdrw x y n)
    | _ => simp [State.skipIf_eq]

/-- No instruction writes a key latch. -/
theorem exec_key_eq (h : exec i s = .next t) : t.key = s.key := by
  obtain ⟨f, -, rfl⟩ | hc := exec_cases h
  · rfl
  · cases hc <;> simp [State.skipIf_eq]

/-- No instruction writes the remainder of the run port. -/
theorem exec_remainder_eq (h : exec i s = .next t) : t.remainder = s.remainder := by
  obtain ⟨f, -, rfl⟩ | hc := exec_cases h
  · rfl
  · exact hc.remainder_eq

/-- Settles O14, space by space. -/
theorem eachSpaceHasItsOwnWriters : Obligations.EachSpaceHasItsOwnWriters := by
  intro i s t h
  refine ⟨fun hb hst a => ?_, exec_stack_eq h, fun hcls hdrw px py => ?_, fun k => ?_, exec_remainder_eq h⟩
  · exact congrArg (Memory.read · a) (exec_mem_eq h hb hst)
  · exact congrArg (Screen.pixel · px py) (exec_fb_eq h hcls hdrw)
  · exact congrArg (·[k]) (exec_key_eq h)

end Sys2Proof.Machine
end

section
/-! SUPPORT. The encoder and the decoder (30_encoding.md R80 to R90) against each other and against the opcode table:
the fields of an opcode, one inversion lemma per dispatcher of the decoder, and what a table row's mask and match say
about the fields. -/

namespace Sys2Proof

/-! ### An opcode is made of its fields (R81, R82) -/

/-- The two bytes of an opcode in memory order join to the opcode (R80). -/
theorem joinBytes_highByte_lowByte (op : Word) : joinBytes (highByte op) (lowByte op) = op :=
  (BitVec.extractLsb'_append_extractLsb'_eq_extractLsb' rfl).trans BitVec.extractLsb'_eq_self

theorem fieldFam_append_fieldX (op : Word) : fieldFam op ++ fieldX op = highByte op :=
  BitVec.extractLsb'_append_extractLsb'_eq_extractLsb' rfl

theorem highByte_append_fieldY (op : Word) : highByte op ++ fieldY op = op.extractLsb' 4 12 :=
  BitVec.extractLsb'_append_extractLsb'_eq_extractLsb' rfl

theorem encodeNNN_fields (op : Word) : encodeNNN (fieldFam op) (fieldNNN op) = op :=
  (BitVec.extractLsb'_append_extractLsb'_eq_extractLsb' rfl).trans BitVec.extractLsb'_eq_self

theorem encodeXKK_fields (op : Word) : encodeXKK (fieldFam op) (fieldX op) (fieldKK op) = op := by
  rw [encodeXKK, fieldFam_append_fieldX]
  exact joinBytes_highByte_lowByte op

theorem encodeXYN_fields (op : Word) : encodeXYN (fieldFam op) (fieldX op) (fieldY op) (fieldN op) = op := by
  rw [encodeXYN, fieldFam_append_fieldX, highByte_append_fieldY]
  exact (BitVec.extractLsb'_append_extractLsb'_eq_extractLsb' rfl).trans BitVec.extractLsb'_eq_self

section
variable {op : Word} {fam : Nibble} (h : (fieldFam op).toNat = fam.toNat)
include h

/-- An opcode of family `fam`, put together again in each format. -/
theorem encodeNNN_of_fam : encodeNNN fam (fieldNNN op) = op := by
  rw [← BitVec.eq_of_toNat_eq h, encodeNNN_fields]

theorem encodeXKK_of_fam : encodeXKK fam (fieldX op) (fieldKK op) = op := by
  rw [← BitVec.eq_of_toNat_eq h, encodeXKK_fields]

theorem encodeXYN_of_fam : encodeXYN fam (fieldX op) (fieldY op) (fieldN op) = op := by
  rw [← BitVec.eq_of_toNat_eq h, encodeXYN_fields]

end

theorem fieldFam_toNat (op : Word) : (fieldFam op).toNat = op.toNat / 0x1000 := by
  have := op.isLt
  simp only [fieldFam, BitVec.extractLsb'_toNat, Nat.shiftRight_eq_div_pow]
  omega

theorem fieldN_toNat (op : Word) : (fieldN op).toNat = op.toNat % 0x10 := by
  simp [fieldN]

theorem fieldKK_toNat (op : Word) : (fieldKK op).toNat = op.toNat % 0x100 := by
  simp [fieldKK]

/-! ### Decoding the encoding -/

/-- Each format gives back its fields, and the dispatchers read the selectors the encoder wrote. -/
theorem decodeWord_encode (i : Instr) : decodeWord (encode i) = .ok i := by
  cases i with
  | cls | ret => rfl
  | jp | call | ldI | jpV0 | seImm | sneImm | ldImm | addImm | rnd | seReg | sneReg | drw =>
    simp [encode, decodeWord]
  | ldReg | orReg | andReg | xorReg | addReg | subReg | shr | subnReg | shl =>
    simp [encode, decodeWord, decodeFamily8]
  | skp | sknp => simp [encode, decodeWord, decodeFamilyE]
  | ldVxDt | ldVxK | ldDtVx | ldStVx | addI | ldF | ldB | storeRegs | loadRegs =>
    simp [encode, decodeWord, decodeFamilyF]

/-- Settles O1: the two bytes of the opcode join to the opcode, which decodes to the instruction. -/
theorem decodeInvertsEncode : Obligations.DecodeInvertsEncode := by
  intro i
  refine ⟨decodeWord_encode i, ?_⟩
  rw [encodeBytes, decodeBytes, joinBytes_highByte_lowByte, decodeWord_encode]

/-- Settles O5: each word is the encoding of its instruction. -/
theorem printedWordsDecode : Obligations.PrintedWordsDecode :=
  ⟨decodeWord_encode .cls, decodeWord_encode (.jp 0x228), decodeWord_encode (.ldImm 1 5),
    decodeWord_encode (.ldImm 0 7), decodeWord_encode (.addReg 0 1), decodeWord_encode (.drw 0 0 1),
    decodeWord_encode (.shr 0xA 0xB), decodeWord_encode (.ldVxK 3)⟩

/-! ### Encoding what was decoded -/

variable {op : Word} {i : Instr}

theorem encode_of_decodeFamily0 (h : decodeFamily0 op = .ok i) : encode i = op := by
  unfold decodeFamily0 at h
  split at h
  next hop => cases h; exact hop.symm
  next =>
    split at h
    next hop => cases h; exact hop.symm
    next => cases h

/-- The selector of family 8 stands in `n`, so the instruction keeps `x`, `y` and `n` (R86, R90). -/
theorem encode_of_decodeFamily8 (h : decodeFamily8 op = .ok i) :
    encode i = encodeXYN 0x8 (fieldX op) (fieldY op) (fieldN op) := by
  unfold decodeFamily8 at h
  split at h <;> cases h
  all_goals exact congrArg (encodeXYN 0x8 _ _) (BitVec.eq_of_toNat_eq (Eq.symm ‹_›))

theorem encode_of_decodeFamilyE (h : decodeFamilyE op = .ok i) :
    encode i = encodeXKK 0xE (fieldX op) (fieldKK op) := by
  unfold decodeFamilyE at h
  split at h <;> cases h
  all_goals exact congrArg (encodeXKK 0xE _) (BitVec.eq_of_toNat_eq (Eq.symm ‹_›))

theorem encode_of_decodeFamilyF (h : decodeFamilyF op = .ok i) :
    encode i = encodeXKK 0xF (fieldX op) (fieldKK op) := by
  unfold decodeFamilyF at h
  split at h <;> cases h
  all_goals exact congrArg (encodeXKK 0xF _) (BitVec.eq_of_toNat_eq (Eq.symm ‹_›))

/-- In families 5 and 9 the low nibble is 0 or the decoder refuses (R90). -/
theorem eq_and_fieldN_of_guard_ok {j : Instr}
    (h : (if fieldN op = 0#4 then Except.ok j else .error (.illegal op) : Except DecodeError Instr) = .ok i) :
    i = j ∧ 0#4 = fieldN op := by
  split at h
  next hn => cases h; exact ⟨rfl, hn.symm⟩
  next => cases h

/-- Family by family, what is decoded keeps every field of the opcode. -/
theorem encode_of_decodeWord (h : decodeWord op = .ok i) : encode i = op := by
  unfold decodeWord at h
  split at h
  next => exact encode_of_decodeFamily0 h
  next hfam => cases h; exact encodeNNN_of_fam hfam
  next hfam => cases h; exact encodeNNN_of_fam hfam
  next hfam => cases h; exact encodeXKK_of_fam hfam
  next hfam => cases h; exact encodeXKK_of_fam hfam
  next hfam =>
    obtain ⟨rfl, hn⟩ := eq_and_fieldN_of_guard_ok h
    exact (congrArg (encodeXYN 0x5 _ _) hn).trans (encodeXYN_of_fam hfam)
  next hfam => cases h; exact encodeXKK_of_fam hfam
  next hfam => cases h; exact encodeXKK_of_fam hfam
  next hfam => exact (encode_of_decodeFamily8 h).trans (encodeXYN_of_fam hfam)
  next hfam =>
    obtain ⟨rfl, hn⟩ := eq_and_fieldN_of_guard_ok h
    exact (congrArg (encodeXYN 0x9 _ _) hn).trans (encodeXYN_of_fam hfam)
  next hfam => cases h; exact encodeNNN_of_fam hfam
  next hfam => cases h; exact encodeNNN_of_fam hfam
  next hfam => cases h; exact encodeXKK_of_fam hfam
  next hfam => cases h; exact encodeXYN_of_fam hfam
  next hfam => exact (encode_of_decodeFamilyE h).trans (encodeXKK_of_fam hfam)
  next hfam => exact (encode_of_decodeFamilyF h).trans (encodeXKK_of_fam hfam)
  next => cases h

/-- Settles O2: what is decoded keeps every field, so the fields put together again are the opcode. -/
theorem encodeInvertsDecode : Obligations.EncodeInvertsDecode := fun _ _ h => encode_of_decodeWord h

/-! ### The opcode table (R84) -/

/-- The encoding of an instruction selects the instruction's row. -/
theorem tableRow_selects_encode (i : Instr) : (tableRow i).selects (encode i) = true := by
  refine decide_eq_true ?_
  change Laws.EncodedRow.Statement i
  cases i with
  | cls | ret => rfl
  | jp | call | ldI | jpV0 => exact encodeNNN_mask _ _
  | seImm | sneImm | ldImm | addImm | rnd => exact encodeXKK_mask_family _ _ _
  | drw => exact encodeXYN_mask_family _ _ _ _
  | seReg | sneReg | ldReg | orReg | andReg | xorReg | addReg | subReg | shr | subnReg | shl =>
    exact encodeXYN_mask_selector _ _ _ _
  | skp | sknp | ldVxDt | ldVxK | ldDtVx | ldStVx | addI | ldF | ldB | storeRegs | loadRegs =>
    exact encodeXKK_mask_selector _ _ _

/-- The table has a row for every instruction and no other rows. -/
theorem mem_opcodeTable_iff {row : OpcodeRow} : row ∈ opcodeTable ↔ ∃ i, tableRow i = row := by
  constructor
  · revert row
    simp only [opcodeTable, List.forall_mem_append, List.forall_mem_cons, exists_apply_eq_apply, List.not_mem_nil,
      IsEmpty.forall_iff, implies_true, and_self]
  · rintro ⟨i, rfl⟩
    cases i <;> exact of_decide_eq_true rfl

/-- The full mask compares the whole opcode. -/
theorem eq_of_and_allOnes {a b : Word} (h : a &&& 0xFFFF#16 = b &&& 0xFFFF#16) : a = b := by
  rwa [show 0xFFFF#16 = BitVec.allOnes 16 from rfl, BitVec.and_allOnes, BitVec.and_allOnes] at h

/-- The family mask compares the family. -/
theorem fieldFam_eq_of_and {a b : Word} (h : a &&& 0xF000#16 = b &&& 0xF000#16) : fieldFam a = fieldFam b := by
  rw [← encodeNNN_fields a, ← encodeNNN_fields b, encodeNNN_mask, encodeNNN_mask] at h
  simpa using congrArg fieldFam h

/-- The mask of a low nibble compares the family and `n`. -/
theorem fieldFam_fieldN_eq_of_and {a b : Word} (h : a &&& 0xF00F#16 = b &&& 0xF00F#16) :
    fieldFam a = fieldFam b ∧ fieldN a = fieldN b := by
  rw [← encodeXYN_fields a, ← encodeXYN_fields b, encodeXYN_mask_selector, encodeXYN_mask_selector] at h
  exact ⟨by simpa using congrArg fieldFam h, by simpa using congrArg fieldN h⟩

/-- The mask of a low byte compares the family and `kk`. -/
theorem fieldFam_fieldKK_eq_of_and {a b : Word} (h : a &&& 0xF0FF#16 = b &&& 0xF0FF#16) :
    fieldFam a = fieldFam b ∧ fieldKK a = fieldKK b := by
  rw [← encodeXKK_fields a, ← encodeXKK_fields b, encodeXKK_mask_selector, encodeXKK_mask_selector] at h
  exact ⟨by simpa using congrArg fieldFam h, by simpa using congrArg fieldKK h⟩

/-- An opcode that selects the row of `i` agrees with the encoding of `i` under the row's mask, so the decoder takes
the branch of `i`. -/
theorem exists_decodeWord_of_selects (h : (tableRow i).selects op = true) :
    ∃ j, decodeWord op = .ok j ∧ tableRow j = tableRow i := by
  have hmask : op &&& (tableRow i).mask = encode i &&& (tableRow i).mask :=
    (of_decide_eq_true h).trans (of_decide_eq_true (tableRow_selects_encode i)).symm
  cases i with
  | cls | ret =>
    exact ⟨_, (congrArg decodeWord (eq_of_and_allOnes hmask)).trans (decodeWord_encode _), rfl⟩
  | jp | call | ldI | jpV0 | seImm | sneImm | ldImm | addImm | rnd | drw =>
    have hfam := fieldFam_eq_of_and hmask
    simp [decodeWord, hfam, encode, tableRow]
  | seReg | sneReg | ldReg | orReg | andReg | xorReg | addReg | subReg | shr | subnReg | shl =>
    obtain ⟨hfam, hn⟩ := fieldFam_fieldN_eq_of_and hmask
    simp [decodeWord, decodeFamily8, hfam, hn, encode, tableRow]
  | skp | sknp | ldVxDt | ldVxK | ldDtVx | ldStVx | addI | ldF | ldB | storeRegs | loadRegs =>
    obtain ⟨hfam, hkk⟩ := fieldFam_fieldKK_eq_of_and hmask
    simp [decodeWord, decodeFamilyE, decodeFamilyF, hfam, hkk, encode, tableRow]

/-- Settles O3: the encoding of what is decoded selects its row, and an opcode that selects a row decodes to an
instruction of that row. -/
theorem decodesExactlyTheTableRows : Obligations.DecodesExactlyTheTableRows := by
  intro op
  refine ⟨⟨?_, ?_⟩, ?_⟩
  · rintro ⟨i, hi⟩
    refine ⟨tableRow i, mem_opcodeTable_iff.2 ⟨i, rfl⟩, ?_⟩
    rw [← encode_of_decodeWord hi]
    exact tableRow_selects_encode i
  · rintro ⟨row, hrow, hsel⟩
    obtain ⟨k, rfl⟩ := mem_opcodeTable_iff.1 hrow
    obtain ⟨j, hj, -⟩ := exists_decodeWord_of_selects hsel
    exact ⟨j, hj⟩
  · intro i hi row hrow hsel
    obtain ⟨k, rfl⟩ := mem_opcodeTable_iff.1 hrow
    obtain ⟨j, hj, hjk⟩ := exists_decodeWord_of_selects hsel
    obtain rfl : i = j := Except.ok.inj (hi.symm.trans hj)
    exact hjk.symm

/-! ### The illegal opcodes (R89) -/

theorem decodeFamily0_illegal_iff : decodeFamily0 op = .error (.illegal op) ↔ op ≠ 0x00E0#16 ∧ op ≠ 0x00EE#16 := by
  unfold decodeFamily0
  split_ifs <;> simp_all

theorem decodeFamily8_illegal_iff :
    decodeFamily8 op = .error (.illegal op) ↔ (fieldN op).toNat ∈ [0x8, 0x9, 0xA, 0xB, 0xC, 0xD, 0xF] := by
  have hn : (fieldN op).toNat < 16 := (fieldN op).isLt
  unfold decodeFamily8
  generalize (fieldN op).toNat = n at hn ⊢
  interval_cases n <;> simp

theorem decodeFamilyE_illegal_iff :
    decodeFamilyE op = .error (.illegal op) ↔ (fieldKK op).toNat ∉ [0x9E, 0xA1] := by
  unfold decodeFamilyE
  split <;> simp_all

theorem decodeFamilyF_illegal_iff :
    decodeFamilyF op = .error (.illegal op) ↔
      (fieldKK op).toNat ∉ [0x07, 0x0A, 0x15, 0x18, 0x1E, 0x29, 0x33, 0x55, 0x65] := by
  unfold decodeFamilyF
  split <;> simp_all

/-- Settles O4: family by family, with R89's numbers read as the fields the decoder looks at. -/
theorem illegalOpcodesAreThoseListed : Obligations.IllegalOpcodesAreThoseListed := by
  intro op
  have hop0 : op.toNat ≠ 0x00E0 ∧ op.toNat ≠ 0x00EE ↔ op ≠ 0x00E0#16 ∧ op ≠ 0x00EE#16 := by
    simp [← BitVec.toNat_inj]
  have hn0 : op.toNat % 0x10 ≠ 0 ↔ fieldN op ≠ 0#4 := by simp [← BitVec.toNat_inj, fieldN_toNat]
  rw [hop0, hn0, ← fieldFam_toNat, ← fieldN_toNat, ← fieldKK_toNat, ← decodeFamily0_illegal_iff,
    ← decodeFamily8_illegal_iff, ← decodeFamilyE_illegal_iff, ← decodeFamilyF_illegal_iff]
  have hfam : (fieldFam op).toNat < 16 := (fieldFam op).isLt
  unfold decodeWord
  generalize (fieldFam op).toNat = fam at hfam ⊢
  interval_cases fam <;> simp

end Sys2Proof
end

section
/-! SUPPORT. The step and the control transfers (40_control_flow.md): a step by where its fetch reads and what the two
bytes decode to, the frames of a new `pc` and of a new stack, and the jumps, calls, returns and skips. -/

namespace Sys2Proof.Machine

variable {s : State} {i : Instr}

/-! ### The step -/

/-- An instruction that checks something is a settled execute phase, whatever the check answers; the others are one
that completes. -/
theorem exec_next (i : Instr) (s : State) : ∃ t, exec i s = .next t := by
  cases i with
  | ret | call | drw | skp | sknp | ldVxK | ldB | storeRegs | loadRegs => exact settle_next s _
  | _ => exact ⟨_, rfl⟩

/-- Settles O7: a faulted machine answers itself, a failed fetch its fault entry, an instruction what it makes. -/
theorem everyStepAnswersANextState : Obligations.EveryStepAnswersANextState := by
  intro s
  cases hf : s.fault with
  | some f => exact ⟨s, step_faulted hf⟩
  | none =>
    cases hi : s.fetch with
    | error f => exact ⟨_, step_fetch_error hf hi⟩
    | ok i => exact step_fetch_ok hf hi ▸ exec_next i s

/-- A step whose fetch leaves memory takes the fault of the first address outside. -/
theorem step_fetch_outside (hf : s.fault = none) (hpc : 0xFFF ≤ s.pc.toNat) :
    step s = .next (s.takeFault (.address (max s.pc.toNat 0x1000))) :=
  step_fetch_error hf (by rw [State.fetch, State.memRead2_error s hpc])

/-- With both bytes in memory the fetch is their decoding, its error turned into the decode fault. -/
theorem State.fetch_eq_decodeBytes (hpc : s.pc.toNat < 0xFFF) :
    s.fetch = (decodeBytes [s.byteAt s.pc.toNat, s.byteAt (s.pc.toNat + 1)]).mapError
      fun _ => .decode (joinBytes (s.byteAt s.pc.toNat) (s.byteAt (s.pc.toNat + 1))) := by
  simp only [State.fetch, State.memRead2_ok s hpc, decodeBytes]
  cases decodeWord (joinBytes (s.byteAt s.pc.toNat) (s.byteAt (s.pc.toNat + 1))) <;> rfl

/-- Settles O6, by the latch, then by where the fetch reads, then by what it decodes to. -/
theorem stepRunsTheDecodedInstruction : Obligations.StepRunsTheDecodedInstruction := by
  intro s
  refine ⟨fun f => step_faulted, fun hf hpc => ?_, fun hf hpc => ?_,
    fun hf hpc => ⟨fun i hd => ?_, fun e hd => ?_⟩⟩
  · rw [step_fetch_outside hf hpc.ge, hpc]
    rfl
  · rw [step_fetch_outside hf hpc.le, Nat.max_eq_left hpc]
  · exact step_fetch_ok hf (by rw [State.fetch_eq_decodeBytes hpc, hd]; rfl)
  · exact step_fetch_error hf (by rw [State.fetch_eq_decodeBytes hpc, hd]; rfl)

/-! ### Frames -/

theorem onlyChanges_pc_stack (s : State) (w : Word) (cells : Vector Word 16) (d : Fin 17) :
    onlyChanges [.pc, .stack] s { s with pc := w, stack := cells, sp := d } := by
  intro p hp
  cases p with
  | pc | stack => simp at hp
  | regs | keys | memory => exact fun _ => rfl
  | screen => exact fun _ _ => rfl
  | _ => rfl

/-- A new `pc` leaves the stack alone too. -/
theorem onlyChanges_setPc (s : State) (w : Word) : onlyChanges [.pc] s (s.setPc w) := by
  intro p hp
  by_cases hst : p = .stack
  · subst hst
    exact ⟨rfl, rfl⟩
  · exact onlyChanges_pc_stack s w s.stack s.sp p (by simp_all)

/-! ### Jumps -/

/-- Settles O22: a jump is a write of `pc`, and the next step's fetch is the one that can leave memory. -/
theorem jumpSetsPcExactly : Obligations.JumpSetsPcExactly := by
  intro nnn s
  refine ⟨decodeWord_encode (.jp nnn), s.setPc (zext12 nnn), exec_jp s nnn, zext12_toNat nnn,
    onlyChanges_setPc s _, fun hlt => ?_, fun htop hf => ?_⟩
  · rw [State.setPc_pc, zext12_toNat]
    exact State.memRead2_ok _ hlt
  · have hpc : (s.setPc (zext12 nnn)).pc.toNat = 0xFFF := (zext12_toNat nnn).trans htop
    rw [step_fetch_outside (s := s.setPc (zext12 nnn)) hf hpc.ge, hpc]
    rfl

/-- Settles O28: the sum of 12 and 8 bits fits in `pc`. -/
theorem jumpWithOffsetAddsV0 : Obligations.JumpWithOffsetAddsV0 := by
  intro nnn s
  refine ⟨s.setPc (zext12 nnn + zext8 (s.getV 0)), exec_jpV0 s nnn, ?_, onlyChanges_setPc s _⟩
  have hnnn := nnn.isLt
  have hV0 := (s.getV 0).isLt
  rw [State.setPc_pc, BitVec.toNat_add, zext12_toNat, zext8_toNat]
  omega

/-! ### The call stack -/

/-- Settles O23: the write of one cell, read back cell by cell. -/
theorem callSavesTheReturnAddress : Obligations.CallSavesTheReturnAddress := by
  intro nnn s hd
  refine ⟨_, exec_call s nnn hd, zext12_toNat nnn, rfl, fun j => ?_, onlyChanges_pc_stack s _ _ _⟩
  simp only [Fin.getElem_fin, Vector.getElem_set, eq_comm (a := j.val)]

/-- Settles O24: the newest saved address is in the cell below the depth. -/
theorem returnTakesTheNewestAddress : Obligations.ReturnTakesTheNewestAddress := by
  intro s hd
  refine ⟨_, exec_ret s hd, Nat.sub_add_cancel (Nat.pos_of_ne_zero hd), fun j hj => ?_, fun j => rfl,
    onlyChanges_pc_stack s _ s.stack _⟩
  simp [← hj]

/-- Settles O26: the cell the call wrote is the newest one of the stack the return finds. -/
theorem callThenReturnComesBack : Obligations.CallThenReturnComesBack := by
  intro nnn s t u hd hcall ⟨hsp, hstack⟩
  obtain ⟨t', hcall', -, hdepth, hcells, -⟩ := callSavesTheReturnAddress nnn s hd
  obtain rfl : t' = t := Host.Outcome.next.inj (hcall'.symm.trans hcall)
  rw [← hsp] at hdepth
  obtain ⟨w, hret, hw, hpc, -, -⟩ := returnTakesTheNewestAddress u (by omega)
  refine ⟨w, hret, ?_, Fin.ext (by omega)⟩
  rw [hpc ⟨s.sp.val, hd⟩ hdepth.symm, hstack, hcells, if_pos rfl]

/-! ### Skips -/

/-- The skip law (R109), for an instruction that does nothing but skip. -/
theorem exec_skip {c : Bool} (h : exec i s = .next (s.advance.skipIf c)) :
    ∃ t, exec i s = .next t ∧ t.pc = (if c then s.pc + 4 else s.pc + 2) ∧ onlyChanges [.pc] s t := by
  refine ⟨_, h, ?_, ?_⟩
  · cases c
    · rfl
    · exact BitVec.add_assoc s.pc 2 2
  · rw [State.skipIf_eq]
    exact onlyChanges_setPc s _

/-- Settles O27: the skip law with each instruction's condition. -/
theorem registerSkips : Obligations.RegisterSkips := by
  intro x y kk s
  refine ⟨?_, ?_, ?_, ?_⟩
  · simpa only [beq_iff_eq] using exec_skip (exec_seImm s x kk)
  · simpa only [bne_iff_ne, ite_not] using exec_skip (exec_sneImm s x kk)
  · simpa only [beq_iff_eq] using exec_skip (exec_seReg s x y)
  · simpa only [bne_iff_ne, ite_not] using exec_skip (exec_sneReg s x y)

end Sys2Proof.Machine
end

section
/-! SUPPORT. The register instructions (41_alu.md): the frame of a write to one register, the flag written after the
result, and the arithmetic of the four flag computations. -/

namespace Sys2Proof.Machine

variable {s t : State}

/-! ### Frames -/

theorem onlyChanges_mono {ps qs : List Part} (h : onlyChanges ps s t) (hsub : ps ⊆ qs) : onlyChanges qs s t :=
  fun p hp => h p fun hps => hp (hsub hps)

theorem onlyChanges_advance {ps : List Part} (hpc : .pc ∈ ps) : onlyChanges ps s s.advance :=
  onlyChanges_mono (onlyChanges_setPc s (s.pc + 2)) (List.cons_subset.2 ⟨hpc, List.nil_subset _⟩)

/-- A register write adds nothing to a frame that leaves the registers free. -/
theorem onlyChanges_setV {ps : List Part} (h : onlyChanges ps s t) (hregs : .regs ∈ ps) (x : Reg) (b : Byte) :
    onlyChanges ps s (t.setV x b) := by
  intro p hp
  cases p with
  | regs => exact absurd hregs hp
  | _ => exact h _ hp

/-- A draw adds nothing to a frame that leaves the draw count free. -/
theorem onlyChanges_countDraw {ps : List Part} (h : onlyChanges ps s t) (hdraws : .draws ∈ ps) :
    onlyChanges ps s t.countDraw := by
  intro p hp
  cases p with
  | draws => exact absurd hdraws hp
  | _ => exact h _ hp

theorem regsKeptBut_advance (rs : List Reg) : regsKeptBut rs s s.advance := fun _ _ => rfl

theorem regsKeptBut_setV {rs : List Reg} {x : Reg} (h : regsKeptBut rs s t) (hx : x ∈ rs) (b : Byte) :
    regsKeptBut rs s (t.setV x b) := by
  intro r hr
  have hrx : r ≠ x := (ne_of_mem_of_not_mem hx hr).symm
  rw [State.setV_getV, if_neg hrx]
  exact h r hr

/-- What an instruction that writes `V[x]` leaves unchanged. -/
theorem advance_setV_frame (s : State) (x : Reg) (b : Byte) :
    (s.advance.setV x b).pc = s.pc + 2 ∧ regsKeptBut [x] s (s.advance.setV x b) ∧
      onlyChanges [.regs, .pc] s (s.advance.setV x b) :=
  ⟨rfl, regsKeptBut_setV (regsKeptBut_advance _) (by simp) b,
    onlyChanges_setV (onlyChanges_advance (by simp)) (by simp) x b⟩

/-- What an instruction that writes `V[x]` and then the flag leaves unchanged. -/
theorem advance_setResultAndFlag_frame (s : State) (x : Reg) (r : Byte × Bool) :
    (s.advance.setResultAndFlag x r).pc = s.pc + 2 ∧ regsKeptBut [x, 15] s (s.advance.setResultAndFlag x r) ∧
      onlyChanges [.regs, .pc] s (s.advance.setResultAndFlag x r) :=
  ⟨rfl, regsKeptBut_setV (regsKeptBut_setV (regsKeptBut_advance _) (by simp) r.1) (by simp) _,
    onlyChanges_setV (onlyChanges_setV (onlyChanges_advance (by simp)) (by simp) x r.1) (by simp) 15 _⟩

/-! ### Reading back what was written -/

theorem State.setV_getV_same (s : State) (x : Reg) (b : Byte) : (s.setV x b).getV x = b := by
  rw [State.setV_getV, if_pos rfl]

/-- The flag is written last (R132). -/
theorem State.setResultAndFlag_getV_flag (s : State) (x : Reg) (r : Byte × Bool) :
    (s.setResultAndFlag x r).getV 15 = flagByte r.2 := State.setV_getV_same _ 15 _

theorem State.setResultAndFlag_getV_result (s : State) {x : Reg} (hx : x ≠ 15) (r : Byte × Bool) :
    (s.setResultAndFlag x r).getV x = r.1 := by
  rw [State.setResultAndFlag_eq, State.setV_getV, if_neg hx, State.setV_getV_same]

theorem State.maskRandom_getV (s : State) (x : Reg) (kk r : Byte) : (s.maskRandom x kk r).getV x = r &&& kk :=
  State.setV_getV_same s x _

/-! ### Flags and results as numbers -/

theorem flagByte_decide (p : Prop) [Decidable p] : flagByte (decide p) = if p then 1 else 0 := by
  simp [flagByte]

theorem flagByte_getLsbD_toNat (a : Byte) (k : Nat) : (flagByte (a.getLsbD k)).toNat = a.toNat / 2 ^ k % 2 := by
  rw [← Nat.toNat_testBit, BitVec.testBit_toNat]
  cases a.getLsbD k <;> rfl

theorem subNoBorrow_toNat (a b : Byte) : (subNoBorrow a b).1.toNat = (a.toNat + 256 - b.toNat) % 256 := by
  have hb := b.isLt
  rw [subNoBorrow, BitVec.toNat_sub']
  omega

theorem shiftRightOne_flag_toNat (a : Byte) : (flagByte (shiftRightOne a).2).toNat = a.toNat % 2 := by
  rw [shiftRightOne, flagByte_getLsbD_toNat, Nat.pow_zero, Nat.div_one]

theorem shiftRightOne_toNat (a : Byte) : (shiftRightOne a).1.toNat = a.toNat / 2 := by
  rw [shiftRightOne, BitVec.toNat_ushiftRight, Nat.shiftRight_eq_div_pow, Nat.pow_one]

/-- Bit 7 is the top bit of a byte. -/
theorem shiftLeftOne_flag_toNat (a : Byte) : (flagByte (shiftLeftOne a).2).toNat = a.toNat / 128 := by
  have ha := a.isLt
  rw [shiftLeftOne, flagByte_getLsbD_toNat]
  omega

theorem shiftLeftOne_toNat (a : Byte) : (shiftLeftOne a).1.toNat = a.toNat * 2 % 256 := by
  rw [shiftLeftOne, BitVec.toNat_shiftLeft, Nat.shiftLeft_eq, Nat.pow_one]

/-- A value inside a mask is kept by it. -/
theorem and_eq_self_of_and_not {v kk : Byte} (h : v &&& ~~~kk = 0) : v &&& kk = v :=
  calc v &&& kk = v &&& kk ||| v &&& ~~~kk := by rw [h]; exact BitVec.or_zero.symm
    _ = v &&& (kk ||| ~~~kk) := BitVec.and_or_distrib_left.symm
    _ = v := by rw [BitVec.or_not_self, BitVec.and_allOnes]

/-! ### The instructions -/

/-- Settles O29: an immediate is a register write. -/
theorem loadImmediate : Obligations.LoadImmediate := fun x kk s =>
  ⟨decodeWord_encode (.ldImm x kk), _, exec_ldImm s x kk, State.setV_getV_same _ x kk, advance_setV_frame s x kk⟩

/-- Settles O30: the sum of two bytes is taken mod 256. -/
theorem addImmediateWraps : Obligations.AddImmediateWraps := fun x kk s =>
  ⟨_, exec_addImm s x kk, by rw [State.setV_getV_same, BitVec.toNat_add], advance_setV_frame s x _⟩

/-- Settles O31: each of the four is a register write, and a bit of the result is the operation on the bits. -/
theorem moveAndLogic : Obligations.MoveAndLogic := by
  intro x y s
  refine ⟨⟨_, exec_ldReg s x y, State.setV_getV_same _ x _, advance_setV_frame s x _⟩,
    ⟨_, exec_orReg s x y, fun k => ?_, advance_setV_frame s x _⟩,
    ⟨_, exec_andReg s x y, fun k => ?_, advance_setV_frame s x _⟩,
    ⟨_, exec_xorReg s x y, fun k => ?_, advance_setV_frame s x _⟩⟩
  · rw [State.setV_getV_same, BitVec.getLsbD_or]
  · rw [State.setV_getV_same, BitVec.getLsbD_and]
  · rw [State.setV_getV_same, BitVec.getLsbD_xor]

/-- Settles O32: the flag is the comparison of the exact sum, the result the sum of two bytes. (`addWithCarry` itself is
the model's flag computation.) -/
theorem addWithCarry_addReg : Obligations.AddWithCarry := by
  intro x y s
  refine ⟨_, exec_addReg s x y, ?_, fun hx => ?_, advance_setResultAndFlag_frame s x _⟩
  · rw [State.setResultAndFlag_getV_flag, addWithCarry, flagByte_decide]
  · rw [State.setResultAndFlag_getV_result _ hx, addWithCarry, BitVec.toNat_add]

/-- A subtraction, whichever operand is the minuend. -/
theorem exec_subtraction {i : Instr} {x : Reg} {a b : Byte}
    (h : exec i s = .next (s.advance.setResultAndFlag x (subNoBorrow a b))) :
    ∃ t, exec i s = .next t ∧ t.getV 15 = (if a.toNat ≥ b.toNat then 1 else 0) ∧
      (x ≠ 15 → (t.getV x).toNat = (a.toNat + 256 - b.toNat) % 256) ∧
      t.pc = s.pc + 2 ∧ regsKeptBut [x, 15] s t ∧ onlyChanges [.regs, .pc] s t := by
  refine ⟨_, h, ?_, fun hx => ?_, advance_setResultAndFlag_frame s x _⟩
  · rw [State.setResultAndFlag_getV_flag, subNoBorrow, flagByte_decide]
  · rw [State.setResultAndFlag_getV_result _ hx, subNoBorrow_toNat]

/-- Settles O33: the two instructions differ in which operand is the minuend. -/
theorem subtractWithNoBorrowFlag : Obligations.SubtractWithNoBorrowFlag := fun x y s =>
  ⟨exec_subtraction (exec_subReg s x y), exec_subtraction (exec_subnReg s x y)⟩

/-- Settles O34: with the quirk flag false both shifts read register `x`; the bit shifted out is the lowest or the
highest. -/
theorem shiftsByOne : Obligations.ShiftsByOne := by
  intro x y s
  refine ⟨⟨_, exec_shr s x y, ?_, fun hx => ?_, advance_setResultAndFlag_frame s x _⟩,
    ⟨_, exec_shl s x y, ?_, fun hx => ?_, advance_setResultAndFlag_frame s x _⟩⟩
  · rw [State.setResultAndFlag_getV_flag, shiftRightOne_flag_toNat]
  · rw [State.setResultAndFlag_getV_result _ hx, shiftRightOne_toNat]
  · rw [State.setResultAndFlag_getV_flag, shiftLeftOne_flag_toNat]
  · rw [State.setResultAndFlag_getV_result _ hx, shiftLeftOne_toNat]

/-- Settles O35: the mask clears every bit outside it, whatever byte is drawn; a value inside the mask is the result of
itself. -/
theorem randomByteIsMasked : Obligations.RandomByteIsMasked := by
  intro x kk s
  have hdraw : onlyChanges [.regs, .pc, .draws] s s.advance.countDraw :=
    onlyChanges_countDraw (onlyChanges_advance (by simp)) (by simp)
  refine ⟨⟨_, exec_rnd s x kk, State.setV_getV_same _ x _, ?_, rfl, rfl,
    regsKeptBut_setV (regsKeptBut_advance _) (by simp) _, onlyChanges_setV hdraw (by simp) x _⟩,
    fun v hv => ⟨v, ?_⟩⟩
  · rw [State.setV_getV_same, BitVec.and_assoc, BitVec.and_not_self]
    exact BitVec.and_zero
  · rw [State.maskRandom_getV, and_eq_self_of_and_not hv]

end Sys2Proof.Machine
end

section
/-! SUPPORT. The display instructions (42_display.md): what a draw does to a pixel and to the flag, and the frame of a
screen write. -/

namespace Sys2Proof.Machine

variable {s t : State}

/-! ### Frames -/

/-- A new screen adds nothing to a frame that leaves the screen free. -/
theorem onlyChanges_setFb {ps : List Part} (h : onlyChanges ps s t) (hscreen : .screen ∈ ps) (f : Screen) :
    onlyChanges ps s (t.setFb f) := by
  intro p hp
  cases p with
  | screen => exact absurd hscreen hp
  | _ => exact h _ hp

/-- A write of `dirty` adds nothing to a frame that leaves `dirty` free. -/
theorem onlyChanges_setDirty {ps : List Part} (h : onlyChanges ps s t) (hdirty : .dirty ∈ ps) (b : Bool) :
    onlyChanges ps s (t.setDirty b) := by
  intro p hp
  cases p with
  | dirty => exact absurd hdirty hp
  | _ => exact h _ hp

/-- What a draw leaves unchanged. -/
theorem advance_drawSprite_frame (s : State) (x y : Reg) (b : List Byte) :
    (s.advance.drawSprite x y b).pc = s.pc + 2 ∧ regsKeptBut [15] s (s.advance.drawSprite x y b) ∧
      onlyChanges [.screen, .regs, .dirty, .pc] s (s.advance.drawSprite x y b) :=
  ⟨rfl, regsKeptBut_setV (regsKeptBut_advance _) (by simp) _,
    onlyChanges_setDirty (onlyChanges_setV (onlyChanges_setFb (onlyChanges_advance (by simp)) (by simp) _)
      (by simp) 15 _) (by simp) true⟩

/-! ### The sprite -/

theorem State.spriteBytes_length_le (s : State) (n : Nibble) : (s.spriteBytes n).length ≤ 32 := by
  have hn := n.isLt
  rw [State.spriteBytes, List.length_map, List.length_range]
  omega

/-- A sprite is read from `I` and memory alone. -/
theorem State.spriteBytes_congr (hI : samePart s t .index) (hmem : samePart s t .memory) (n : Nibble) :
    t.spriteBytes n = s.spriteBytes n := by
  have hI' : t.I = s.I := hI
  have hmem' : ∀ a, t.byteAt a = s.byteAt a := hmem
  simp only [State.spriteBytes, hI', hmem']

/-- Reducing the coordinates before the draw moves no sprite pixel: they wrap anyway (R142). -/
theorem spriteBit_origin (vx vy : Byte) (b : List Byte) (px : Fin 64) (py : Fin 32) :
    spriteBit (originX vx) (originY vy) b px py = spriteBit vx.toNat vy.toNat b px py := by
  simp only [spriteBit, originX, originY, Nat.mod_mod]

/-- A 1 bit of the sprite on a 1 pixel is a pixel the XOR turns from 1 to 0 (R143). -/
theorem collides_iff_cleared {f g : Screen} {x0 y0 : Nat} {b : List Byte}
    (hg : ∀ px py, g.pixel px py = (f.pixel px py != spriteBit x0 y0 b px py)) :
    collides f x0 y0 b ↔ ∃ px py, f.pixel px py = true ∧ g.pixel px py = false := by
  refine exists_congr fun px => exists_congr fun py => and_congr_right fun hf => ?_
  rw [hg, hf]
  cases spriteBit x0 y0 b px py <;> decide

/-! ### A draw, pixel by pixel, and its flag -/

theorem State.drawSprite_pixel (s : State) (x y : Reg) {b : List Byte} (hb : b.length ≤ 32) (px : Fin 64)
    (py : Fin 32) :
    (s.drawSprite x y b).fb.pixel px py
      = (s.fb.pixel px py != spriteBit (s.getV x).toNat (s.getV y).toNat b px py) := by
  rw [← spriteBit_origin]
  exact drawRows_pixel _ _ b hb (s.fb, false) px py

theorem flagByte_eq_one {f : Bool} : flagByte f = 1 ↔ f = true := by
  cases f <;> decide

/-- The flag is written as a byte, after the coordinates are read. -/
theorem State.drawSprite_getV_flag (s : State) (x y : Reg) (b : List Byte) :
    (s.drawSprite x y b).getV 15
      = flagByte (drawRows (originX (s.getV x)) (originY (s.getV y)) b (s.fb, false)).2 :=
  State.setV_getV_same _ 15 _

/-- The flag of a draw: some pixel goes from 1 to 0. -/
theorem State.drawSprite_flag_iff (s : State) (x y : Reg) {b : List Byte} (hb : b.length ≤ 32) :
    (s.drawSprite x y b).getV 15 = 1
      ↔ ∃ px py, s.fb.pixel px py = true ∧ (s.drawSprite x y b).fb.pixel px py = false := by
  rw [State.drawSprite_getV_flag, flagByte_eq_one, drawRows_hit _ _ b hb]
  have hpixel := s.drawSprite_pixel x y hb
  simp only [← spriteBit_origin] at hpixel
  rw [← collides_iff_cleared hpixel]
  exact or_iff_right Bool.false_ne_true

/-- A draw that completed had its rows in memory (60_exceptions.md R202). -/
theorem exec_drw_range {x y : Reg} {n : Nibble} (h : exec (.drw x y n) s = .next t) (ht : t.fault = none) :
    n.toNat = 0 ∨ s.I.toNat + (n.toNat - 1) ≤ 0xFFF := by
  obtain ⟨f, -, rfl⟩ | hc := exec_cases h
  · cases ht
  · cases hc with
    | drw _ _ _ hr => exact hr

/-! ### The instructions -/

/-- Settles O36: the blank screen has every pixel 0, and CLS writes no register. -/
theorem clearBlanksTheScreen : Obligations.ClearBlanksTheScreen := fun s =>
  ⟨decodeWord_encode .cls, _, exec_cls s, Screen.pixel_blank, rfl, rfl,
    onlyChanges_setDirty (onlyChanges_setFb (onlyChanges_advance (by simp)) (by simp) _) (by simp) true⟩

/-- Settles O37: the sprite has at most 15 rows, so no row of the screen is drawn twice. -/
theorem drawXorsTheSprite : Obligations.DrawXorsTheSprite := by
  intro x y n s hn
  have hb := s.spriteBytes_length_le n
  refine ⟨_, exec_drw s x y n (by omega), s.advance.drawSprite_pixel x y hb, ?_,
    s.advance.drawSprite_flag_iff x y hb, rfl, advance_drawSprite_frame s x y _⟩
  rw [State.drawSprite_getV_flag]
  exact flagByte_zero_or_one _

/-- Settles O38: the first draw leaves `I`, memory and both coordinates alone, so the second draws the same sprite at
the same place, and a pixel it clears is one the first draw set. -/
theorem drawingTwiceRestoresTheScreen : Obligations.DrawingTwiceRestoresTheScreen := by
  intro x y n s t u hx hy _ hst ht htu
  have hn := exec_drw_range hst ht
  obtain ⟨t', hst', hpixel, -, -, -, -, hregs, hframe⟩ := drawXorsTheSprite x y n s (by omega)
  obtain rfl : t' = t := Host.Outcome.next.inj (hst'.symm.trans hst)
  have hI : t'.I = s.I := hframe .index (by simp)
  obtain ⟨u', htu', hpixel', -, hflag, -⟩ := drawXorsTheSprite x y n t' (by rw [hI]; omega)
  obtain rfl : u' = u := Host.Outcome.next.inj (htu'.symm.trans htu)
  rw [hregs x (by simpa using hx), hregs y (by simpa using hy),
    State.spriteBytes_congr hI (hframe .memory (by simp))] at hpixel'
  have hscreen : ∀ px py, u'.fb.pixel px py = s.fb.pixel px py := by
    intro px py
    rw [hpixel', hpixel, Bool.bne_assoc, bne_self_eq_false, Bool.bne_false]
  refine ⟨hscreen, hflag.trans (exists_congr fun px => exists_congr fun py => ?_)⟩
  rw [hscreen, hpixel, and_comm]
  refine and_congr_right fun hs => ?_
  rw [hs, Bool.false_bne]

end Sys2Proof.Machine
end

section
/-! SUPPORT. The keypad and timer instructions (43_keypad_timers.md): a key index below 16 as a key of the keypad, the
delay timer after any number of ticks, and the frame of a timer write. -/

namespace Sys2Proof.Machine

variable {s t : State}

/-! ### Frames -/

/-- A write of `DT` adds nothing to a frame that leaves the delay timer free. -/
theorem onlyChanges_setDT {ps : List Part} (h : onlyChanges ps s t) (hdelay : .delay ∈ ps) (b : Byte) :
    onlyChanges ps s (t.setDT b) := by
  intro p hp
  cases p with
  | delay => exact absurd hdelay hp
  | _ => exact h _ hp

/-- A write of `ST` adds nothing to a frame that leaves the sound timer free. -/
theorem onlyChanges_setST {ps : List Part} (h : onlyChanges ps s t) (hsound : .sound ∈ ps) (b : Byte) :
    onlyChanges ps s (t.setST b) := by
  intro p hp
  cases p with
  | sound => exact absurd hsound hp
  | _ => exact h _ hp

/-! ### Keys and timers as numbers -/

/-- A register that holds a key's number names that key (R156). -/
theorem lowNibbleKey_eq {v : Byte} {k : Fin 16} (h : v.toNat = k.val) : lowNibbleKey v = k :=
  Fin.ext ((congrArg (· % 16) h).trans (Nat.mod_eq_of_lt k.isLt))

/-- A key's number fits in a register. -/
theorem toNat_ofNat_key (k : Fin 16) : (BitVec.ofNat 8 k.val).toNat = k.val :=
  (BitVec.toNat_ofNat k.val 8).trans (Nat.mod_eq_of_lt (by omega))

/-- One timer after `n` ticks, never below 0. -/
theorem tickDown_iterate_toNat (n : Nat) (b : Byte) : (tickDown^[n] b).toNat = b.toNat - n := by
  induction n with
  | zero => rfl
  | succ n ih => rw [Function.iterate_succ_apply', tickDown_toNat, ih, Nat.sub_sub]

/-- A tick counts the delay timer down from its own value alone (60_exceptions.md R214). -/
theorem State.advanceTimers_iterate_DT (n : Nat) (s : State) :
    (State.advanceTimers^[n] s).DT = tickDown^[n] s.DT :=
  Function.Semiconj.iterate_right (f := State.DT) (fun _ => rfl) n s

/-! ### The instructions -/

/-- Settles O39: the skip law (R109) with the level of the key that `V[x]` names, SKNP's condition negated. -/
theorem keySkips : Obligations.KeySkips := by
  intro x k s hk
  have hkey : lowNibbleKey (s.getV x) = k := lowNibbleKey_eq hk
  have hx : (s.getV x).toNat ≤ 15 := by omega
  constructor
  · simpa only [hkey] using exec_skip (exec_skp s x hx)
  · simpa only [hkey, Bool.not_eq_true', ← Bool.not_eq_true, ite_not] using exec_skip (exec_sknp s x hx)

/-- Settles O40: the smallest key that is down is the one the instruction finds (D13), and it writes one register. -/
theorem waitForKeyTakesTheSmallest : Obligations.WaitForKeyTakesTheSmallest := fun x k s hk hlt =>
  ⟨_, exec_ldVxK s x k ((State.lowestKey_some s k).2 ⟨hk, hlt⟩),
    by rw [State.setV_getV_same, toNat_ofNat_key], advance_setV_frame s x _⟩

/-- Settles O42: the instruction writes `DT` alone, and the ticks count down from what it wrote. -/
theorem setDelayTimer : Obligations.SetDelayTimer := fun x s =>
  ⟨decodeWord_encode (.ldDtVx x), _, exec_ldDtVx s x, rfl, rfl,
    onlyChanges_setDT (onlyChanges_advance (by simp)) (by simp) _,
    fun n => by rw [State.advanceTimers_iterate_DT, tickDown_iterate_toNat, State.setDT_DT]⟩

/-- Settles O43: one instruction is a register write, the other a write of `ST`. -/
theorem readDelayTimerAndSetSoundTimer : Obligations.ReadDelayTimerAndSetSoundTimer := fun x s =>
  ⟨⟨_, exec_ldVxDt s x, State.setV_getV_same _ x s.DT, advance_setV_frame s x _⟩,
    _, exec_ldStVx s x, rfl, rfl, onlyChanges_setST (onlyChanges_advance (by simp)) (by simp) _⟩

end Sys2Proof.Machine
end

section
/-! SUPPORT. The index register and the memory transfers (44_index_memory.md): the frame of a write to `I`, to a
range of cells and to the whole register file, and what each cell or register holds after a transfer. -/

namespace Sys2Proof.Machine

variable {s t : State}

/-! ### Frames -/

/-- A write of `I` adds nothing to a frame that leaves the index register free. -/
theorem onlyChanges_setI {ps : List Part} (h : onlyChanges ps s t) (hindex : .index ∈ ps) (w : Word) :
    onlyChanges ps s (t.setI w) := by
  intro p hp
  cases p with
  | index => exact absurd hindex hp
  | _ => exact h _ hp

/-- New contents of all registers add nothing to a frame that leaves the registers free. -/
theorem onlyChanges_setAllV {ps : List Part} (h : onlyChanges ps s t) (hregs : .regs ∈ ps) (v : Vector Byte 16) :
    onlyChanges ps s (t.setAllV v) := by
  intro p hp
  cases p with
  | regs => exact absurd hregs hp
  | _ => exact h _ hp

/-- What an instruction that writes `I` leaves unchanged. -/
theorem advance_setI_frame (s : State) (w : Word) :
    (s.advance.setI w).pc = s.pc + 2 ∧ onlyChanges [.index, .pc] s (s.advance.setI w) :=
  ⟨rfl, onlyChanges_setI (onlyChanges_advance (by simp)) (by simp) w⟩

/-- What an instruction that writes memory leaves unchanged outside memory: the advance touches `pc` alone, so at every
other piece the frame is that of the memory write. -/
theorem onlyChanges_advance_setMem (s : State) (m : Memory) : onlyChanges [.memory, .pc] s (s.advance.setMem m) := by
  intro p hp
  cases p with
  | pc => simp at hp
  | _ => exact onlyChanges_setMem s m _ fun hmem => hp (List.mem_append_left [.pc] hmem)

/-! ### Transfers, cell by cell -/

/-- An instruction that stores bytes from `I` upward puts each at its own place (20_memory.md R64). -/
theorem advance_writeAll_byteAt (s : State) {bs : List Byte} {k : Nat} (hk : k < bs.length) :
    (s.advance.setMem (Memory.writeAll s.mem s.I.toNat bs)).byteAt (s.dataAddress k) = bs.getD k 0 := by
  rw [State.setMem_byteAt, State.dataAddress, Memory.read_writeAll, if_pos (by omega), Nat.add_sub_cancel_left]

/-- What an instruction that stores bytes from `I` upward leaves unchanged. -/
theorem advance_writeAll_frame (s : State) (bs : List Byte) :
    memKeptOutside (s.dataAddress 0) bs.length s (s.advance.setMem (Memory.writeAll s.mem s.I.toNat bs)) ∧
      (s.advance.setMem (Memory.writeAll s.mem s.I.toNat bs)).pc = s.pc + 2 ∧
      onlyChanges [.memory, .pc] s (s.advance.setMem (Memory.writeAll s.mem s.I.toNat bs)) := by
  refine ⟨fun b hb => ?_, rfl, onlyChanges_advance_setMem s _⟩
  rw [State.setMem_byteAt, Memory.read_writeAll]
  exact if_neg hb

/-! ### Addresses and digits as numbers -/

/-- The glyph of a digit lies in the font, below the end of the address space (R162). -/
theorem fontAddress_toNat (v : Byte) : (fontAddress v).toNat = 0x050 + 5 * (v.toNat % 16) := by
  rw [fontAddress, BitVec.toNat_ofNat]
  exact Nat.mod_eq_of_lt (by simp only [Config.fontBase]; omega)

/-- A digit is a number below 256, so storing it as a byte loses nothing (R163). -/
theorem bcdDigits_toNat (v : Byte) :
    ((bcdDigits v).getD 0 0).toNat = v.toNat / 100 ∧ ((bcdDigits v).getD 1 0).toNat = v.toNat / 10 % 10 ∧
      ((bcdDigits v).getD 2 0).toNat = v.toNat % 10 := by
  have hv := v.isLt
  refine ⟨?_, ?_, ?_⟩ <;> exact (BitVec.toNat_ofNat _ 8).trans (Nat.mod_eq_of_lt (by omega))

/-! ### The instructions -/

/-- Settles O47: the byte at place `j` of the range is `V[j]`, and there are `x + 1` of them. -/
theorem storeRegistersToMemory : Obligations.StoreRegistersToMemory := by
  intro x s hr
  have hlen : (s.lowRegs x).length = x.toNat + 1 := State.lowRegs_length s x
  refine ⟨_, exec_storeRegs s x hr, fun j hj => ?_, hlen ▸ advance_writeAll_frame s (s.lowRegs x)⟩
  rw [advance_writeAll_byteAt s (by omega), State.lowRegs_getD s x _ hj, BitVec.ofNat_toNat, BitVec.setWidth_eq]

/-- Settles O48: a load puts the byte at place `j` of the range into `V[j]` and keeps the registers above the range. -/
theorem loadRegistersFromMemory : Obligations.LoadRegistersFromMemory := by
  intro x s hr
  refine ⟨_, exec_loadRegs s x hr, fun j => ?_, rfl, onlyChanges_setAllV (onlyChanges_advance (by simp)) (by simp) _⟩
  rw [← State.advance_V, State.setManyV_getV, List.length_map, List.length_range]
  by_cases hj : j.toNat ≤ x.toNat
  · rw [if_pos (Nat.lt_succ_of_le hj), if_pos hj]
    simp [State.dataAddress, List.getD, Nat.lt_succ_of_le hj]
  · rw [if_neg (by omega), if_neg hj, State.advance_getV]

/-- Settles O49: the store leaves `I` alone (D10), so the load reads the cells the store wrote. -/
theorem storeThenLoadRestoresTheRegisters : Obligations.StoreThenLoadRestoresTheRegisters := by
  intro x s t u hr hst hmem hI
  obtain ⟨t', hst', hcells, -, -, hframe⟩ := storeRegistersToMemory x s hr
  obtain rfl : t' = t := Host.Outcome.next.inj (hst'.symm.trans hst)
  have hIus : u.I = s.I := Eq.trans hI (hframe .index (by simp))
  obtain ⟨w, hld, hregs, -, -⟩ := loadRegistersFromMemory x u (by rwa [hIus])
  refine ⟨w, hld, fun j hj => ?_⟩
  have haddr : u.dataAddress j.toNat = s.dataAddress j.toNat := congrArg (·.toNat + j.toNat) hIus
  rw [hregs, if_pos hj, haddr, hmem, hcells j hj]

/-- Settles O45: each of the three is a write of `I`; the sum of two words is taken mod 65536. -/
theorem indexRegisterLoads : Obligations.IndexRegisterLoads := fun nnn x s =>
  ⟨⟨_, exec_ldI s nnn, zext12_toNat nnn, advance_setI_frame s _⟩,
    ⟨_, exec_addI s x, by rw [State.setI_I, BitVec.toNat_add, zext8_toNat], advance_setI_frame s _⟩,
    ⟨_, exec_ldF s x, fontAddress_toNat _, advance_setI_frame s _⟩⟩

/-- Settles O46: the byte at each of the three places is its digit, the hundreds first (D11). -/
theorem bcdStoresThreeDigits : Obligations.BcdStoresThreeDigits := by
  intro x s hr
  obtain ⟨hundreds, tens, ones⟩ := bcdDigits_toNat (s.getV x)
  refine ⟨_, exec_ldB s x hr, ?_, ?_, ?_, advance_writeAll_frame s (bcdDigits (s.getV x))⟩
  · rw [advance_writeAll_byteAt s (by simp), hundreds]
  · rw [advance_writeAll_byteAt s (by simp), tens]
  · rw [advance_writeAll_byteAt s (by simp), ones]

end Sys2Proof.Machine
end

section
/-! SUPPORT. Which instruction raises which fault (60_exceptions.md R200 to R209), what a raising instruction leaves
unchanged, and who sets `dirty`. -/

namespace Sys2Proof.Machine

variable {s t : State} {i : Instr}

/-! ### Faults -/

/-- Settles O8: a completed instruction leaves the latch alone, so one that changed it raised. -/
theorem aRaisingInstructionChangesOnlyTheLatch : Obligations.ARaisingInstructionChangesOnlyTheLatch := by
  intro i s t h hne
  obtain ⟨f, -, rfl⟩ | hc := exec_cases h
  · exact ⟨f, rfl⟩
  · exact absurd hc.fault_eq hne

/-- The latch after an instruction that raises `f` exactly where `p` holds and completes elsewhere. -/
theorem exec_fault_eq_ite {p : Prop} [Decidable p] {f : Fault} (hs : s.fault = none) (h : exec i s = .next t)
    (hraises : p → exec i s = .next (s.takeFault f)) (hcompletes : ¬p → ∃ u, exec i s = .next u ∧ Completes s i u) :
    t.fault = if p then some f else none := by
  split
  next hp =>
    rw [hraises hp] at h; cases h
    rfl
  next hp =>
    obtain ⟨u, hu, hc⟩ := hcompletes hp
    rw [hu] at h; cases h
    exact hc.fault_eq.trans hs

/-- Settles O9: each instruction that can raise, by the guard of its check; the others complete on every state. -/
theorem faultsOfEveryInstruction : Obligations.FaultsOfEveryInstruction := by
  intro i s t hs h
  cases i with
  | ret => exact exec_fault_eq_ite hs h (exec_ret_raises s) fun hd => ⟨_, exec_ret s hd, .ret hd⟩
  | call nnn =>
    refine exec_fault_eq_ite hs h (exec_call_raises s nnn) fun hd => ?_
    have hroom : s.sp.val < 16 := by omega
    exact ⟨_, exec_call s nnn hroom, .call nnn hroom⟩
  | drw x y n =>
    refine exec_fault_eq_ite hs h (fun hr => exec_drw_raises s x y n (by omega) (by omega)) fun hr => ?_
    have hin : n.toNat = 0 ∨ s.I.toNat + (n.toNat - 1) ≤ 0xFFF := by omega
    exact ⟨_, exec_drw s x y n hin, .drw x y n hin⟩
  | ldB x =>
    exact exec_fault_eq_ite hs h (exec_ldB_raises s x) fun hr =>
      ⟨_, exec_ldB s x (Nat.le_of_not_gt hr), .ldB x (Nat.le_of_not_gt hr)⟩
  | storeRegs x =>
    exact exec_fault_eq_ite hs h (exec_storeRegs_raises s x) fun hr =>
      ⟨_, exec_storeRegs s x (Nat.le_of_not_gt hr), .storeRegs x (Nat.le_of_not_gt hr)⟩
  | loadRegs x =>
    exact exec_fault_eq_ite hs h (exec_loadRegs_raises s x) fun hr =>
      ⟨_, exec_loadRegs s x (Nat.le_of_not_gt hr), .loadRegs x (Nat.le_of_not_gt hr)⟩
  | skp x =>
    exact exec_fault_eq_ite hs h (exec_skp_raises s x) fun hk =>
      ⟨_, exec_skp s x (Nat.le_of_not_gt hk), .skp x (Nat.le_of_not_gt hk)⟩
  | sknp x =>
    exact exec_fault_eq_ite hs h (exec_sknp_raises s x) fun hk =>
      ⟨_, exec_sknp s x (Nat.le_of_not_gt hk), .sknp x (Nat.le_of_not_gt hk)⟩
  | ldVxK x =>
    cases hk : s.lowestKey with
    | none =>
      rw [exec_ldVxK_waits s x hk] at h; cases h
      exact hs
    | some k =>
      rw [exec_ldVxK s x k hk] at h; cases h
      exact hs
  | seImm | sneImm | seReg | sneReg =>
    cases h
    rw [State.skipIf_eq]
    exact hs
  | _ =>
    cases h
    exact hs

/-- Settles O25: the latch was clear, so the fault in it afterwards is the one O9 gives. -/
theorem stackFaultsAtTheTwoEnds : Obligations.StackFaultsAtTheTwoEnds := by
  intro nnn s hs
  constructor
  · obtain ⟨t, h⟩ := exec_next (.call nnn) s
    have hf : t.fault = if s.sp.val = 16 then some (.stack .overflow) else none :=
      faultsOfEveryInstruction _ s t hs h
    exact ⟨t, h, by simp [hf]⟩
  · obtain ⟨t, h⟩ := exec_next .ret s
    have hf : t.fault = if s.sp.val = 0 then some (.stack .underflow) else none :=
      faultsOfEveryInstruction _ s t hs h
    exact ⟨t, h, by simp [hf]⟩

/-! ### The dirty flag -/

/-- A clear or a draw that completes sets `dirty` (R140, R141). -/
theorem Completes.dirty_of_clear_or_draw (hc : Completes s i t) (hi : i = .cls ∨ ∃ x y n, i = .drw x y n) :
    t.dirty = true := by
  obtain rfl | ⟨x, y, n, rfl⟩ := hi
  · cases hc; rfl
  · cases hc; rfl

/-- `dirty` keeps its value but under 00E0 and Dxyn. -/
theorem exec_dirty_eq (h : exec i s = .next t) (hcls : i ≠ .cls) (hdrw : ∀ x y n, i ≠ .drw x y n) :
    t.dirty = s.dirty := by
  obtain ⟨f, -, rfl⟩ | hc := exec_cases h
  · rfl
  · cases hc with
    | cls => exact absurd rfl hcls
    | drw x y n => exact absurd rfl (hdrw x y n)
    | _ => simp [State.skipIf_eq]

end Sys2Proof.Machine
end

section
/-! SUPPORT. The host ports (60_exceptions.md R205 to R228): what an operation that is not a run can do, the view byte
by byte, and the two inductions over a run and over a schedule, with the invariant carried through them. -/

namespace Sys2Proof.Machine

variable {s t : State}

/-! ### Key events -/

/-- A key event on a key the keypad has. -/
theorem afterKey_keyEvent (s : State) {k : Nat} (h : k < 16) (b : Bool) :
    afterKey s (s.keyEvent k b) = (s.setKey ⟨k, h⟩ b, .nothing) := by
  rw [State.keyEvent_ok s h, afterKey]

/-- A key event on an index the keypad lacks (R207). -/
theorem afterKey_keyEvent_invalid (s : State) {k : Nat} (h : k > 15) (b : Bool) :
    afterKey s (s.keyEvent k b) = (s, .invalidInput (.invalidKey k)) := by
  rw [State.keyEvent_error s h, afterKey]

/-- Settles O55: both ports go through the one check. -/
theorem invalidKeyEventsChangeNothing : Obligations.InvalidKeyEventsChangeNothing := fun _ s hk =>
  ⟨afterKey_keyEvent_invalid s hk true, afterKey_keyEvent_invalid s hk false⟩

/-- A key event adds nothing to a frame that leaves the key latches free. -/
theorem onlyChanges_setKey {ps : List Part} (h : onlyChanges ps s t) (hkeys : .keys ∈ ps) (k : Fin 16) (b : Bool) :
    onlyChanges ps s (t.setKey k b) := by
  intro p hp
  cases p with
  | keys => exact absurd hkeys hp
  | _ => exact h _ hp

/-- A tick adds nothing to a frame that leaves both timers free. -/
theorem onlyChanges_advanceTimers {ps : List Part} (h : onlyChanges ps s t) (hdelay : .delay ∈ ps)
    (hsound : .sound ∈ ps) : onlyChanges ps s t.advanceTimers :=
  onlyChanges_setST (onlyChanges_setDT h hdelay _) hsound _

theorem onlyChanges_refl (ps : List Part) (s : State) : onlyChanges ps s s := by
  intro p _
  cases p with
  | stack => exact ⟨rfl, rfl⟩
  | regs | keys | memory => exact fun _ => rfl
  | screen => exact fun _ _ => rfl
  | _ => rfl

/-- Settles O54: a key event writes one latch of the sixteen. -/
theorem keyEventsSetOneLatch : Obligations.KeyEventsSetOneLatch := by
  intro k s hk
  have hevent : ∀ b, ∃ t, s.keyEvent k b = .ok t ∧
      (∀ j : Fin 16, t.isPressed j = if j.val = k then b else s.isPressed j) ∧ onlyChanges [.keys] s t := by
    intro b
    refine ⟨_, State.keyEvent_ok s hk b, fun j => ?_, onlyChanges_setKey (onlyChanges_refl _ s) (by simp) _ b⟩
    simp only [State.setKey_isPressed, Fin.ext_iff]
  exact ⟨hevent true, hevent false⟩

/-! ### Ticks -/

/-- A tick counts the sound timer down from its own value alone (R214). -/
theorem State.advanceTimers_iterate_ST (n : Nat) (s : State) :
    (State.advanceTimers^[n] s).ST = tickDown^[n] s.ST :=
  Function.Semiconj.iterate_right (f := State.ST) (fun _ => rfl) n s

theorem onlyChanges_advanceTimers_iterate (n : Nat) (s : State) :
    onlyChanges [.delay, .sound] s (State.advanceTimers^[n] s) := by
  induction n with
  | zero => exact onlyChanges_refl _ s
  | succ n ih =>
    rw [Function.iterate_succ_apply']
    exact onlyChanges_advanceTimers ih (by simp) (by simp)

/-- Settles O44: each timer is ticked on its own. -/
theorem ticksCountBothTimersDown : Obligations.TicksCountBothTimersDown := fun n s =>
  ⟨by rw [State.advanceTimers_iterate_DT, tickDown_iterate_toNat],
    by rw [State.advanceTimers_iterate_ST, tickDown_iterate_toNat], onlyChanges_advanceTimers_iterate n s⟩

/-! ### The display -/

/-- Settles O56: the flag is cleared, so a second call finds it clear and clears it again. -/
theorem displayChangedReadsAndClears : Obligations.DisplayChangedReadsAndClears := fun s =>
  ⟨s.setDirty false, rfl, rfl, onlyChanges_setDirty (onlyChanges_refl _ s) (by simp) false, rfl⟩

/-- The view is the screen's rows one after the other (D15). -/
theorem State.framebufferView_eq (s : State) : s.framebufferView = s.fb.flatten.toList.map pixelByte := by
  simp [State.framebufferView, Vector.flatten, Vector.toList, List.flatMap_def, Function.comp_def]

theorem State.framebufferView_length (s : State) : s.framebufferView.length = 2048 := by
  rw [State.framebufferView_eq, List.length_map, Vector.length_toList]

theorem State.framebufferView_getD (s : State) (px : Fin 64) (py : Fin 32) :
    s.framebufferView.getD (64 * py.val + px.val) 0 = pixelByte (s.fb.pixel px py) := by
  have hlt : 64 * py.val + px.val < 32 * 64 := by omega
  have hrow : (64 * py.val + px.val) / 64 = py.val := by omega
  have hcol : (64 * py.val + px.val) % 64 = px.val := by omega
  rw [State.framebufferView_eq, List.getD_eq_getElem _ _ (by simpa using hlt), List.getElem_map, Vector.getElem_toList,
    Vector.getElem_flatten hlt]
  simp only [hrow, hcol]
  rfl

/-- Settles O57: pixel `(x, y)` is place `x` of row `y`. -/
theorem theViewIsRowMajor : Obligations.TheViewIsRowMajor := fun s =>
  ⟨_, rfl, s.framebufferView_length, s.framebufferView_getD⟩

/-! ### An operation that is not a run -/

/-- A key event sets one latch or, with an index above 15, does nothing. -/
theorem afterKey_keyEvent_cases (s : State) (k : Nat) (b : Bool) :
    (∃ j, (afterKey s (s.keyEvent k b)).1 = s.setKey j b) ∨ (afterKey s (s.keyEvent k b)).1 = s := by
  by_cases hk : k < 16
  · exact .inl ⟨_, by rw [afterKey_keyEvent s hk]⟩
  · exact .inr (by rw [afterKey_keyEvent_invalid s (by omega)])

section
variable (s) {op : HostOp} (hsteps : ∀ n, op ≠ .runSteps n) (hrun : ∀ p e, op ≠ .run p e)
include hsteps hrun

/-- What such an operation can do to the machine: set or clear a key latch, tick, clear `dirty`, or nothing. -/
theorem hostOp_cases_of_not_run :
    (∃ k b, (hostOp s op).1 = s.setKey k b) ∨ (op = .advanceTimers ∧ (hostOp s op).1 = s.advanceTimers) ∨
      (hostOp s op).1 = s.setDirty false ∨ (hostOp s op).1 = s := by
  cases op with
  | pressKey k =>
    obtain ⟨j, h⟩ | h := afterKey_keyEvent_cases s k true
    · exact .inl ⟨j, true, h⟩
    · exact .inr (.inr (.inr h))
  | releaseKey k =>
    obtain ⟨j, h⟩ | h := afterKey_keyEvent_cases s k false
    · exact .inl ⟨j, false, h⟩
    · exact .inr (.inr (.inr h))
  | advanceTimers => exact .inr (.inl ⟨rfl, rfl⟩)
  | displayChanged => exact .inr (.inr (.inl rfl))
  | framebufferView | delayTimerValue | soundTimerValue => exact .inr (.inr (.inr rfl))
  | runSteps n => exact absurd rfl (hsteps n)
  | run p e => exact absurd rfl (hrun p e)

/-- The frame of the ports (R224). -/
theorem onlyChanges_hostOp : onlyChanges [.keys, .delay, .sound, .dirty] s (hostOp s op).1 := by
  obtain ⟨k, b, h⟩ | ⟨-, h⟩ | h | h := hostOp_cases_of_not_run s hsteps hrun <;> rw [h]
  · exact onlyChanges_setKey (onlyChanges_refl _ s) (by simp) k b
  · exact onlyChanges_advanceTimers (onlyChanges_refl _ s) (by simp) (by simp)
  · exact onlyChanges_setDirty (onlyChanges_refl _ s) (by simp) false
  · exact onlyChanges_refl _ s

/-- The ports do not reach the latch (R205). -/
theorem hostOp_fault_eq : (hostOp s op).1.fault = s.fault := onlyChanges_hostOp s hsteps hrun .fault (by simp)

/-- Only a tick moves the timers (R213, R214). -/
theorem hostOp_timers_eq (htick : op ≠ .advanceTimers) :
    (hostOp s op).1.DT = s.DT ∧ (hostOp s op).1.ST = s.ST := by
  obtain ⟨k, b, h⟩ | ⟨hop, -⟩ | h | h := hostOp_cases_of_not_run s hsteps hrun
  · simp [h]
  · exact absurd hop htick
  · simp [h]
  · simp [h]

/-- No port sets `dirty` (R221). -/
theorem dirty_of_hostOp_dirty (hdirty : (hostOp s op).1.dirty = true) : s.dirty = true := by
  obtain ⟨k, b, h⟩ | ⟨-, h⟩ | h | h := hostOp_cases_of_not_run s hsteps hrun <;> rw [h] at hdirty
  · exact hdirty
  · exact hdirty
  · cases hdirty
  · exact hdirty

end

/-- Settles O58: the frame of the ports; the queries answer the timers and the old state. -/
theorem theHostReachesOnlyItsPorts : Obligations.TheHostReachesOnlyItsPorts := fun s _ hsteps hrun =>
  ⟨onlyChanges_hostOp s hsteps hrun, hostOp_timers_eq s hsteps hrun, rfl, rfl⟩

/-- Settles O16: the completed clears and draws, the steps that raised, the other instructions, and the ports. -/
theorem dirtyIsSetByCompletedClearsAndDrawsOnly : Obligations.DirtyIsSetByCompletedClearsAndDrawsOnly := by
  intro i s t hs h
  refine ⟨fun hi ht => ?_, fun ht => ?_, exec_dirty_eq h, fun op => dirty_of_hostOp_dirty s⟩
  · obtain ⟨f, -, rfl⟩ | hc := exec_cases h
    · cases ht
    · exact hc.dirty_of_clear_or_draw hi
  · obtain ⟨f, rfl⟩ := aRaisingInstructionChangesOnlyTheLatch i s t h (hs ▸ ht)
    rfl

/-! ### Runs and schedules -/

/-- A property that every step keeps holds at the end of a run, which always answers a next state. -/
theorem runSteps_keeps {P : State → Prop} (hstep : ∀ s t, P s → step s = .next t → P t) (n : Nat) {s : State}
    (hs : P s) : ∃ t, runSteps n s = .next t ∧ P t := by
  induction n generalizing s with
  | zero => exact ⟨s, rfl, hs⟩
  | succ n ih =>
    cases hf : s.fault with
    | some f => exact ⟨s, runSteps_faulted s hf _, hs⟩
    | none =>
      obtain ⟨t, h⟩ := everyStepAnswersANextState s
      rw [runSteps_succ s hf h]
      exact ih (hstep s t hs h)

/-- A property that every operation of a schedule keeps holds at its end. -/
theorem schedule_keeps {P : State → Prop} {ops : List HostOp} (hop : ∀ op ∈ ops, ∀ s, P s → P (hostOp s op).1)
    {s : State} (hs : P s) : P (schedule ops s).1 := by
  induction ops generalizing s with
  | nil => exact hs
  | cons op ops ih =>
    exact ih (fun o ho => hop o (List.mem_cons_of_mem op ho)) (hop op List.mem_cons_self s hs)

theorem runFor_faulted {f : Fault} (hf : s.fault = some f) (p : Config.Pacing) (e : Rat) :
    runFor p e s = .next s := by simp [runFor, hf]

theorem runFor_ready (hf : s.fault = none) (p : Config.Pacing) (e : Rat) :
    runFor p e s = runSteps (budget p s.remainder e).1 (s.setRemainder (budget p s.remainder e).2) := by
  simp [runFor, hf]

/-- A run that ended in `t`, as the host sees it. -/
theorem hostOp_runSteps {n : Nat} (h : runSteps n s = .next t) : hostOp s (.runSteps n) = (t, .ran t.fault) := by
  rw [hostOp, h, afterRun]

theorem hostOp_run {p : Config.Pacing} {e : Rat} (h : runFor p e s = .next t) :
    hostOp s (.run p e) = (t, .ran t.fault) := by
  rw [hostOp, h, afterRun]

/-- Settles O13: a faulted machine executes nothing, and the ports that are not runs do not reach the latch. -/
theorem aFaultedMachineStaysFaulted : Obligations.AFaultedMachineStaysFaulted := by
  intro s f hf
  have hsteps : ∀ n, hostOp s (.runSteps n) = (s, .ran (some f)) := fun n =>
    hf ▸ hostOp_runSteps (runSteps_faulted s hf n)
  have hrun : ∀ p e, hostOp s (.run p e) = (s, .ran (some f)) := fun p e => hf ▸ hostOp_run (runFor_faulted hf p e)
  refine ⟨step_faulted hf, fun op => ?_, hsteps, hrun⟩
  cases op with
  | runSteps n => rw [hsteps, hf]
  | run p e => rw [hrun, hf]
  | _ =>
    rw [← hf]
    exact hostOp_fault_eq s nofun nofun

/-! ### The invariant of a driven machine -/

/-- A run makes the whole instructions in its time at its rate and what it was given (R246). -/
theorem budget_steps (p : Config.Pacing) (r e : Rat) :
    (budget p r e).1 = ⌊e * p.ips + if p.carry = true then r else 0⌋₊ := rfl

/-- What a run carries on is a fraction of an instruction, with the carry on or off (R247). -/
theorem budget_remainder_bounds {p : Config.Pacing} {r e : Rat} (hips : 0 ≤ p.ips) (he : 0 ≤ e) (hr : 0 ≤ r) :
    0 ≤ (budget p r e).2 ∧ (budget p r e).2 < 1 := by
  cases hc : p.carry with
  | false =>
    rw [budget_no_carry hc]
    exact ⟨le_refl 0, zero_lt_one⟩
  | true =>
    have ht : 0 ≤ e * p.ips + r := add_nonneg (mul_nonneg he hips) hr
    have hsplit := budget_carry hc r e
    rw [budget_steps, if_pos hc] at hsplit
    have hle := Nat.floor_le ht
    have hlt := Nat.lt_floor_add_one (e * p.ips + r)
    constructor <;> linarith

/-- The machine `create` makes is the reset state with an image that fits stored in it (R240). -/
theorem State.Inv.loaded {rom : List Byte} (hlen : rom.length ≤ 3584) : (State.loaded rom).Inv where
  mem := Memory.wf_writeAll rom (by simp only [Config.progBase, Config.memTop]; omega) reset_memory_wf
  pc := resetMeetsTheInvariant.pc
  stack := resetMeetsTheInvariant.stack
  fault := resetMeetsTheInvariant.fault
  remainder := resetMeetsTheInvariant.remainder

theorem State.Inv.setRemainder (hs : s.Inv) {q : Rat} (hq : 0 ≤ q ∧ q < 1) : (s.setRemainder q).Inv where
  mem := hs.mem
  pc := hs.pc
  stack := hs.stack
  fault := hs.fault
  remainder := hq

/-- The ports that are not runs write nothing the invariant speaks of. -/
theorem State.Inv.hostOp_of_not_run {op : HostOp} (hs : s.Inv) (hsteps : ∀ n, op ≠ .runSteps n)
    (hrun : ∀ p e, op ≠ .run p e) : (hostOp s op).1.Inv := by
  obtain ⟨k, b, h⟩ | ⟨-, h⟩ | h | h := hostOp_cases_of_not_run s hsteps hrun
  all_goals
    rw [h]
    exact ⟨hs.mem, hs.pc, hs.stack, hs.fault, hs.remainder⟩

theorem State.Inv.runSteps (hs : s.Inv) (n : Nat) : ∃ t, runSteps n s = .next t ∧ t.Inv :=
  runSteps_keeps everyStepKeepsTheInvariant n hs

theorem State.Inv.runFor (hs : s.Inv) {p : Config.Pacing} {e : Rat} (hips : 0 ≤ p.ips) (he : 0 ≤ e) :
    ∃ t, runFor p e s = .next t ∧ t.Inv := by
  cases hf : s.fault with
  | some f => exact ⟨s, runFor_faulted hf p e, hs⟩
  | none =>
    rw [runFor_ready hf]
    exact (hs.setRemainder (budget_remainder_bounds hips he hs.remainder.1)).runSteps _

/-- Every host operation inside its port's domain keeps the invariant. -/
theorem State.Inv.hostOp {op : HostOp} (hs : s.Inv) (hdom : op.inDomain) : (hostOp s op).1.Inv := by
  cases op with
  | runSteps n =>
    obtain ⟨t, h, ht⟩ := hs.runSteps n
    rwa [hostOp_runSteps h]
  | run p e =>
    obtain ⟨hips, he⟩ := hdom
    obtain ⟨t, h, ht⟩ := hs.runFor hips he
    rwa [hostOp_run h]
  | _ => exact hs.hostOp_of_not_run nofun nofun

/-- Settles O12: the loaded machine meets the invariant, and every operation of the schedule keeps it. -/
theorem everyReachableMachineMeetsTheInvariant : Obligations.EveryReachableMachineMeetsTheInvariant := by
  rintro s ⟨rom, ops, s0, hcreate, hdom, rfl⟩
  obtain ⟨rfl, -, hlen⟩ := create_cases hcreate
  exact schedule_keeps (fun op hop _ hs => hs.hostOp (hdom op hop)) (State.Inv.loaded hlen)

end Sys2Proof.Machine
end

section
/-! SUPPORT. Reset, load and run (70_reset_and_hazards.md): the image in memory, runs put end to end, the wait for a key,
and the sums of the run budgets. -/

namespace Sys2Proof.Machine

variable {s t : State}

/-! ### `create` -/

/-- The decoder names the opcode it rejects: so does each of its branches that rejects. -/
theorem decodeWord_error {op : Word} {e : DecodeError} (h : decodeWord op = .error e) : e = .illegal op := by
  unfold decodeWord decodeFamily0 decodeFamily8 decodeFamilyE decodeFamilyF at h
  repeat' split at h
  all_goals cases h <;> rfl

/-- Bytes with an illegal opcode are at least two, and the opcode is made of the first two. -/
theorem decodeBytes_illegal {bs : List Byte} {op : Word} (h : decodeBytes bs = .error (.illegal op)) :
    2 ≤ bs.length ∧ joinBytes (bs.getD 0 0) (bs.getD 1 0) = op ∧ decodeWord op = .error (.illegal op) := by
  match bs with
  | [] | [_] => cases h
  | hi :: lo :: _ =>
    obtain rfl : op = joinBytes hi lo := DecodeError.illegal.inj (decodeWord_error h)
    exact ⟨by simp, rfl, h⟩

theorem resetByte_eq_zero {a : Nat} (h : 0x0A0 ≤ a) : resetByte a = 0 :=
  if_neg fun hfont => absurd hfont.2 (Nat.not_lt.2 h)

theorem create_ok {rom : List Byte} (h1 : 1 ≤ rom.length) (h2 : rom.length ≤ 3584) :
    create rom = .ok (State.loaded rom) := by
  rw [create, if_neg (by omega), if_neg (Nat.not_lt.2 h2)]

theorem State.loaded_byteAt_image {rom : List Byte} {k : Nat} (hk : k < rom.length) :
    (State.loaded rom).byteAt (0x200 + k) = rom.getD k 0 := by
  rw [State.loaded_byteAt, if_pos ⟨by omega, by omega⟩, Nat.add_sub_cancel_left]

theorem State.loaded_byteAt_outside {rom : List Byte} {a : Nat} (ha : a < 0x200 ∨ 0x200 + rom.length ≤ a) :
    (State.loaded rom).byteAt a = resetByte a := by
  rw [State.loaded_byteAt, if_neg (by omega)]

/-- The first fetch after `create` reads the first two bytes of the image. -/
theorem State.loaded_fetch_illegal {rom : List Byte} {op : Word} (h : decodeBytes rom = .error (.illegal op)) :
    (State.loaded rom).fetch = .error (.decode op) := by
  obtain ⟨hlen, hjoin, hd⟩ := decodeBytes_illegal h
  have hread : (State.loaded rom).memRead2 0x200 = .ok op := by
    rw [State.memRead2_ok _ (by omega), ← hjoin]
    have hhi := State.loaded_byteAt_image (rom := rom) (k := 0) (by omega)
    have hlo := State.loaded_byteAt_image (rom := rom) (k := 1) (by omega)
    rw [← hhi, ← hlo]
  have hpc : (State.loaded rom).pc.toNat = 0x200 := rfl
  simp only [State.fetch, hpc, hread, hd]

/-- Settles O50: an image that fits is stored whole, and the cell after it is beyond the font. -/
theorem createAcceptsEveryImageThatFits : Obligations.CreateAcceptsEveryImageThatFits := by
  intro rom
  refine ⟨fun h0 => if_pos h0, fun hlong => ?_, fun h1 h2 => ⟨_, create_ok h1 h2, ?_, ?_, ?_⟩⟩
  · rw [create, if_neg (by omega), if_pos hlong]
  · exact fun k => State.loaded_byteAt_image
  · exact fun _ => (State.loaded_byteAt_outside (.inr (le_refl _))).trans (resetByte_eq_zero (by omega))
  · exact fun op hop => step_fetch_error rfl (State.loaded_fetch_illegal hop)

/-- Zeros stored beyond the font are the reset content, which memory does not list. -/
theorem Memory.writeAll_zeros {bs : List Byte} (hbs : ∀ b ∈ bs, b = 0) {a : Nat} (ha : 0x0A0 ≤ a) :
    Memory.writeAll [] a bs = [] := by
  induction bs generalizing a with
  | nil => rfl
  | cons b bs ih =>
    obtain ⟨rfl, htail⟩ := List.forall_mem_cons.1 hbs
    rw [Memory.writeAll, Memory.write, if_pos (resetByte_eq_zero ha).symm]
    exact ih htail (by omega)

/-- Settles O51: every field but memory is that of the reset state. -/
theorem createMakesTheResetState : Obligations.CreateMakesTheResetState := by
  intro rom s h
  obtain ⟨rfl, -, -⟩ := create_cases h
  refine ⟨rfl, fun k => State.loaded_byteAt_image, fun a ha => State.loaded_byteAt_outside ha, fun r => ?_, rfl, rfl,
    fun j => ?_, rfl, rfl, Screen.pixel_blank, rfl, fun k => ?_, rfl, rfl, fun hzero => ?_⟩
  · exact Vector.getElem_replicate _
  · exact Vector.getElem_replicate _
  · exact Vector.getElem_replicate _
  · exact congrArg State.reset.setMem (Memory.writeAll_zeros hzero (by decide))

/-! ### Runs -/

theorem runSteps_next (n : Nat) (s : State) : ∃ t, runSteps n s = .next t := by
  obtain ⟨t, h, -⟩ := runSteps_keeps (s := s) (P := fun _ => True) (fun _ _ _ _ => trivial) n trivial
  exact ⟨t, h⟩

/-- A run of `k + m` steps is a run of `m` steps after one of `k`. -/
theorem runSteps_add {k : Nat} (h : runSteps k s = .next t) (m : Nat) : runSteps (k + m) s = runSteps m t := by
  induction k generalizing s with
  | zero =>
    cases h
    rw [Nat.zero_add]
  | succ k ih =>
    cases hf : s.fault with
    | some f =>
      rw [runSteps_faulted s hf] at h; cases h
      exact (runSteps_faulted _ hf _).trans (runSteps_faulted _ hf m).symm
    | none =>
      obtain ⟨u, hu⟩ := everyStepAnswersANextState s
      rw [runSteps_succ s hf hu] at h
      rw [Nat.succ_add, runSteps_succ s hf hu, ih h]

/-- Settles O53: the steps left over run on a faulted machine. -/
theorem aFaultEndsTheRun : Obligations.AFaultEndsTheRun := by
  intro k n s t f h hf hkn
  obtain ⟨m, rfl⟩ := Nat.exists_eq_add_of_le hkn
  have hrun : runSteps (k + m) s = .next t := (runSteps_add h m).trans (runSteps_faulted t hf m)
  obtain ⟨-, -, hlaterSteps, hlaterTime⟩ := aFaultedMachineStaysFaulted t f hf
  exact ⟨hrun, hf ▸ hostOp_runSteps hrun, hlaterSteps, hlaterTime⟩

/-! ### The wait for a key (R256) -/

/-- The machine stands at an Fx0A with no fault and no key down. -/
structure State.Waiting (s : State) (x : Reg) : Prop where
  ready : s.fault = none
  fetch : s.fetch = .ok (.ldVxK x)
  released : ∀ k, s.isPressed k = false

/-- The fetch reads `pc` and memory. -/
theorem State.fetch_congr (hpc : samePart s t .pc) (hmem : samePart s t .memory) : t.fetch = s.fetch := by
  have hpc : t.pc = s.pc := hpc
  have hmem : t.byteAt = s.byteAt := funext hmem
  simp only [State.fetch, State.memRead2, hpc, hmem]

theorem onlyChanges_setRemainder {ps : List Part} (h : onlyChanges ps s t) (hrem : .remainder ∈ ps) (q : Rat) :
    onlyChanges ps s (t.setRemainder q) := by
  intro p hp
  cases p with
  | remainder => exact absurd hrem hp
  | _ => exact h _ hp

/-- Releasing a key that is not down adds nothing to a frame. -/
theorem onlyChanges_release {ps : List Part} (h : onlyChanges ps s t) {k : Fin 16} (hk : t.isPressed k = false) :
    onlyChanges ps s (t.setKey k false) := by
  intro p hp
  cases p with
  | keys =>
    intro j
    rw [State.setKey_isPressed, ← h .keys hp j]
    split
    next hj => rw [hj, hk]
    next => rfl
  | _ => exact h _ hp

section
variable {x : Reg} (hw : s.Waiting x)
include hw

theorem State.Waiting.step_eq : step s = .next s := by
  rw [step_fetch_ok hw.ready hw.fetch, exec_ldVxK_waits s x (s.lowestKey_none.2 hw.released)]

theorem State.Waiting.runSteps_eq (n : Nat) : runSteps n s = .next s := by
  have hstep : ∀ u v, u = s → step u = .next v → v = s := by
    rintro u v rfl huv
    exact Host.Outcome.next.inj (huv.symm.trans hw.step_eq)
  obtain ⟨t, hrun, rfl⟩ := runSteps_keeps hstep n rfl
  exact hrun

/-- What keeps a machine waiting: `pc`, memory, the keys and the latch. -/
theorem State.Waiting.of_onlyChanges (h : onlyChanges [.delay, .sound, .dirty, .remainder] s t) : t.Waiting x where
  ready := (h .fault (by simp)).trans hw.ready
  fetch := (State.fetch_congr (h .pc (by simp)) (h .memory (by simp))).trans hw.fetch
  released k := (h .keys (by simp) k).trans (hw.released k)

/-- Every operation but a key press leaves a waiting machine waiting. -/
theorem State.Waiting.onlyChanges_hostOp {op : HostOp} (hop : ∀ k, op ≠ .pressKey k)
    (h : onlyChanges [.delay, .sound, .dirty, .remainder] s t) :
    onlyChanges [.delay, .sound, .dirty, .remainder] s (hostOp t op).1 := by
  have ht := hw.of_onlyChanges h
  cases op with
  | pressKey k => exact absurd rfl (hop k)
  | releaseKey k =>
    change onlyChanges _ s (afterKey t (t.keyEvent k false)).1
    obtain ⟨j, hj⟩ | hj := afterKey_keyEvent_cases t k false
    · rw [hj]
      exact onlyChanges_release h (ht.released j)
    · rwa [hj]
  | advanceTimers => exact onlyChanges_advanceTimers h (by simp) (by simp)
  | runSteps n =>
    rw [hostOp_runSteps (ht.runSteps_eq n)]
    exact h
  | run p e =>
    have h' := onlyChanges_setRemainder h (by simp) (budget p t.remainder e).2
    have hrun := (runFor_ready ht.ready p e).trans ((hw.of_onlyChanges h').runSteps_eq _)
    rw [hostOp_run hrun]
    exact h'
  | displayChanged => exact onlyChanges_setDirty h (by simp) false
  | framebufferView | delayTimerValue | soundTimerValue => exact h

end

/-- Settles O41: the step of a waiting machine is no change, and the schedule's operations keep it waiting. -/
theorem theWaitRepeatsForEver : Obligations.TheWaitRepeatsForEver := by
  intro x s hready hfetch hreleased
  have hw : s.Waiting x := ⟨hready, hfetch, hreleased⟩
  exact ⟨hw.runSteps_eq, fun ops hops => schedule_keeps
    (fun op hmem _ => hw.onlyChanges_hostOp (hops op hmem)) (onlyChanges_refl _ s)⟩

/-! ### The remainder (R246, R247) -/

theorem State.skipIf_setRemainder (s : State) (c : Bool) (q : Rat) :
    (s.setRemainder q).skipIf c = (s.skipIf c).setRemainder q := by
  cases c <;> rfl

/-- An execute phase whose body only carries the remainder along answers the same with it replaced. -/
theorem execute_setRemainder {body : State → Except Fault State} {q : Rat} (h : execute s body = .next t)
    (hb : body (s.setRemainder q).advance = (body s.advance).map (·.setRemainder q)) :
    execute (s.setRemainder q) body = .next (t.setRemainder q) := by
  obtain ht | ⟨f, hf, rfl⟩ := execute_cases h
  · exact execute_ok (by rw [hb, ht]; rfl)
  · exact execute_error (by rw [hb, hf]; rfl)

/-- No instruction observes the remainder (R247). -/
theorem exec_setRemainder {i : Instr} (h : exec i s = .next t) (q : Rat) :
    exec i (s.setRemainder q) = .next (t.setRemainder q) := by
  cases i with
  | ret =>
    by_cases hd : s.sp.val = 0
    · rw [exec_ret_raises s hd] at h; cases h
      exact exec_ret_raises (s.setRemainder q) hd
    · rw [exec_ret s hd] at h; cases h
      exact exec_ret (s.setRemainder q) hd
  | call nnn =>
    by_cases hd : s.sp.val < 16
    · rw [exec_call s nnn hd] at h; cases h
      exact exec_call (s.setRemainder q) nnn hd
    · have hd : s.sp.val = 16 := by omega
      rw [exec_call_raises s nnn hd] at h; cases h
      exact exec_call_raises (s.setRemainder q) nnn hd
  | ldVxK x =>
    cases hk : s.lowestKey with
    | none =>
      rw [exec_ldVxK_waits s x hk] at h; cases h
      exact exec_ldVxK_waits (s.setRemainder q) x hk
    | some k =>
      rw [exec_ldVxK s x k hk] at h; cases h
      exact exec_ldVxK (s.setRemainder q) x k hk
  | skp | sknp =>
    unfold exec at h ⊢
    exact execute_setRemainder h (except_map_eq_of_comp _ fun _ => State.skipIf_setRemainder s.advance _ q)
  | drw | ldB | storeRegs | loadRegs =>
    unfold exec at h ⊢
    exact execute_setRemainder h (except_map_eq_of_comp _ fun _ => rfl)
  | seImm | sneImm | seReg | sneReg =>
    unfold exec at h ⊢
    exact execute_setRemainder h (congrArg Except.ok (State.skipIf_setRemainder s.advance _ q))
  | _ =>
    unfold exec at h ⊢
    exact execute_setRemainder h rfl

theorem step_setRemainder (h : step s = .next t) (q : Rat) : step (s.setRemainder q) = .next (t.setRemainder q) := by
  obtain ⟨f, hf, rfl⟩ | ⟨hf, f, he, rfl⟩ | ⟨hf, i, hi, hx⟩ := step_cases h
  · exact step_faulted hf
  · exact step_fetch_error (s := s.setRemainder q) hf he
  · rw [step_fetch_ok (s := s.setRemainder q) hf hi]
    exact exec_setRemainder hx q

/-- A run by time is the run of the steps its budget counts, with the remainder its budget leaves (R246). -/
theorem hostOp_run_eq_runSteps (hf : s.fault = none) (p : Config.Pacing) (e : Rat) :
    hostOp s (.run p e) =
      hostOp (s.setRemainder (budget p s.remainder e).2) (.runSteps (budget p s.remainder e).1) := by
  obtain ⟨t, h⟩ := runSteps_next (budget p s.remainder e).1 (s.setRemainder (budget p s.remainder e).2)
  rw [hostOp_runSteps h, hostOp_run ((runFor_ready hf p e).trans h)]

/-- The remainder after a sequence of calls is a fraction of an instruction. -/
theorem budgetAll_remainder_bounds {p : Config.Pacing} (hips : 0 ≤ p.ips) {es : List Rat} (hes : ∀ e ∈ es, 0 ≤ e)
    {r : Rat} (hr : 0 ≤ r ∧ r < 1) : 0 ≤ (budgetAll p r es).2 ∧ (budgetAll p r es).2 < 1 := by
  induction es generalizing r with
  | nil => exact hr
  | cons e es ih =>
    obtain ⟨he, hes⟩ := List.forall_mem_cons.1 hes
    exact ih hes (budget_remainder_bounds hips he hr.1)

/-- The steps of a sequence of calls and what it carries make up its whole time and what it was given. -/
theorem budgetAll_carry {p : Config.Pacing} (hc : p.carry = true) (r : Rat) (es : List Rat) :
    ((budgetAll p r es).1 : Rat) + (budgetAll p r es).2 = p.ips * es.sum + r := by
  induction es generalizing r with
  | nil => simp [budgetAll]
  | cons e es ih =>
    have hhead := budget_carry hc r e
    have htail := ih (budget p r e).2
    simp only [budgetAll, Nat.cast_add, List.sum_cons]
    linarith

/-- Without the carry each call rounds down on its own. -/
theorem budgetAll_no_carry {p : Config.Pacing} (hc : p.carry = false) (hips : 0 ≤ p.ips) {es : List Rat}
    (hes : ∀ e ∈ es, 0 ≤ e) (r : Rat) :
    ((budgetAll p r es).1 : Int) = (es.map fun e => (e * p.ips).floor).sum := by
  induction es generalizing r with
  | nil => rfl
  | cons e es ih =>
    obtain ⟨he, hes⟩ := List.forall_mem_cons.1 hes
    have hsteps : ((budget p r e).1 : Int) = (e * p.ips).floor := by
      rw [budget_steps, hc, if_neg Bool.false_ne_true, add_zero]
      exact Int.natCast_floor_eq_floor (mul_nonneg he hips)
    simp only [budgetAll, Nat.cast_add, List.map_cons, List.sum_cons, hsteps, ih hes]

/-- Settles O52: the carried sum is the floor because what is left is less than one. -/
theorem theRemainderLosesNoInstruction : Obligations.TheRemainderLosesNoInstruction := by
  refine ⟨rfl, fun p e s hf => hostOp_run_eq_runSteps hf p e, fun p r es hc hips hes hr0 hr1 => ?_,
    fun p r es hc hips hes => budgetAll_no_carry hc hips hes r, fun s t q h => step_setRemainder h q⟩
  obtain ⟨hnonneg, hlt⟩ := budgetAll_remainder_bounds hips hes ⟨hr0, hr1⟩
  refine ⟨hnonneg, hlt, ?_⟩
  obtain ⟨h0, h1⟩ := budgetAll_remainder_bounds hips hes ⟨le_refl 0, zero_lt_one⟩
  have hsum := budgetAll_carry hc 0 es
  have hfloor : ⌊p.ips * es.sum⌋ = ((budgetAll p 0 es).1 : Int) := by
    rw [Int.floor_eq_iff, Int.cast_natCast]
    constructor <;> linarith
  exact hfloor.symm

end Sys2Proof.Machine
end
